-- ==== Sys2Proof/Word.lean ====
section
/-! DEFINITION. The words of the block: the 8-bit element, the count register's word, the 11-bit command word. -/

namespace Sys2Proof

/-- One element of storage: an 8-bit unsigned datum (00_scope.md R8). -/
abbrev Byte := BitVec 8

/-- The `count` register: CW bits, and CW = 8 for every capacity in scope (00_scope.md R9; log entry 4). -/
abbrev CountWord := BitVec 8

/-- The command word {init, rem, ins, ins_data[7:0]} of one cycle (30_encoding.md R55). -/
abbrev CommandWord := BitVec 11

/-- The opcode field `cmd[10:8]` = {init, rem, ins} (30_encoding.md R55, R57). -/
abbrev Opcode := BitVec 3

end Sys2Proof
end

