-- ==== Sys2Proof/Config.lean ====
section
/-! DEFINITION. What an instance fixes (capacity, misuse policy) and the free values the spec leaves open. -/

namespace Sys2Proof

/-- What the model does at a contract violation (60_exceptions.md R97, R98; 92_eei_decisions.md D16). -/
inductive MisusePolicy where
  /-- The run stops, faulted: the spec's default. -/
  | fault
  /-- The fault mark is set and the block carries on by the unguarded datapath. -/
  | mechanical
  deriving DecidableEq, Repr

namespace Config

/-- The default of the parameter N (00_scope.md R7, 92 D9; log entry 3). -/
def defaultCapacity : Nat := 255

/-- The largest capacity in scope: the largest that an 8-bit count represents (00_scope.md R7, R9). -/
def maxCapacity : Nat := 255

/-- The default of MISUSE_POLICY (92_eei_decisions.md D16). -/
def defaultPolicy : MisusePolicy := .fault

/-- AW, the width of a cursor register: max(1, ⌈log2 N⌉) for N ≥ 1 (00_scope.md R10). No rule depends on it. -/
def cursorWidth (capacity : Nat) : Nat := Nat.log2 (capacity - 1) + 1

/-- `unspecified(CW)` on the port `count` (41_queries.md R72) and in the register that log entry 6 leaves unspecified: the
draw with this number. Log entry 7. -/
opaque freeCount : Nat → CountWord

/-- `unspecified(1)` on the port `empty` (41_queries.md R72): the draw with this number. Log entry 7. -/
opaque freeEmpty : Nat → Bool

/-- `unspecified(1)` on the port `full` (41_queries.md R72): the draw with this number. Log entry 7. -/
opaque freeFull : Nat → Bool

/-- `unspecified(8)` on the port `rem_data` (41_queries.md R72, R75; 20_memory.md R49): the draw with this number.
Log entries 7, 8, 9. -/
opaque freeDatum : Nat → Byte

/-- An unspecified write cursor left by a command in UNINIT (60_exceptions.md R89), before it is cut to AW bits.
Log entry 6. -/
opaque freeWrPtr : Nat → Nat

/-- An unspecified read cursor left by a command in UNINIT (60_exceptions.md R89), before it is cut to AW bits.
Log entry 6. -/
opaque freeRdPtr : Nat → Nat

end Config

end Sys2Proof
end

