-- ==== Sys2Proof/Syntax.lean ====
section
/-! DEFINITION. The command set (one constructor per row of spec/opcode_table.json), the rows of the opcode map, and
the trace notation with its pseudo-commands. -/

namespace Sys2Proof

/-- The command set (30_encoding.md R58): five commands, selected by the command word, and four output functions,
evaluated in every cycle and selected by no bit. -/
inductive Instr where
  /-- No command in this cycle (44_concurrent.md R85). -/
  | nop
  /-- Insert the element `d` (42_insert.md R77). -/
  | ins (d : Byte)
  /-- Remove the oldest element (43_remove.md R80). -/
  | rem
  /-- Insert `d` and remove the oldest element in one cycle (44_concurrent.md R83). -/
  | insrem (d : Byte)
  /-- Initialise (40_init.md R67). -/
  | init
  /-- Output function on port `count` (41_queries.md R71). -/
  | count
  /-- Output function on port `empty` (41_queries.md R73). -/
  | empty
  /-- Output function on port `full` (41_queries.md R74). -/
  | full
  /-- Output function on port `rem_data` (41_queries.md R75). -/
  | head
  deriving DecidableEq, Repr

/-- The two formats of the opcode table (30_encoding.md R54, R58). -/
inductive Format where
  /-- A command, selected by the command word. -/
  | cmd
  /-- An output function, active under every command word. -/
  | out
  deriving DecidableEq, Repr

/-- The format of a row's instruction (30_encoding.md R58). -/
def Instr.format : Instr → Format
  | .nop => .cmd
  | .ins _ => .cmd
  | .rem => .cmd
  | .insrem _ => .cmd
  | .init => .cmd
  | .count => .out
  | .empty => .out
  | .full => .out
  | .head => .out

/-- The element a command presents for insertion, if it inserts (30_encoding.md R56). -/
def Instr.inserted : Instr → Option Byte
  | .nop => none
  | .ins d => some d
  | .rem => none
  | .insrem d => some d
  | .init => none
  | .count => none
  | .empty => none
  | .full => none
  | .head => none

/-- Does the command remove an element (43_remove.md R80, 44_concurrent.md R83)? -/
def Instr.removes : Instr → Bool
  | .nop => false
  | .ins _ => false
  | .rem => true
  | .insrem _ => true
  | .init => false
  | .count => false
  | .empty => false
  | .full => false
  | .head => false

/-- The commands the contract is about: those that insert or remove (60_exceptions.md R88). -/
def Instr.contracted (i : Instr) : Prop := i.inserted.isSome = true ∨ i.removes = true

/-- The rows of the opcode map, by name (30_encoding.md R57). -/
inductive CommandName where
  | nop
  | ins
  | rem
  | insrem
  | init
  deriving DecidableEq, Repr

/-- One row of the opcode map: a word w selects it if `w AND mask = match` (30_encoding.md R57). -/
structure OpcodeRow where
  name : CommandName
  pattern : CommandWord
  mask : CommandWord
  deriving DecidableEq, Repr

/-- An expectation on one output of the cycle in which a command is presented (30_encoding.md R63). -/
inductive Expectation where
  | count (v : Nat)
  | empty (v : Bool)
  | full (v : Bool)
  | remData (v : Nat)
  deriving DecidableEq, Repr

/-- One line of a trace: one command, one cycle, with its expectations (30_encoding.md R63). -/
structure TraceLine where
  command : Instr
  expects : List Expectation
  deriving DecidableEq, Repr

/-- One written item of a trace: a line, or a pseudo-command (30_encoding.md R63, R64). -/
inductive TraceItem where
  | line (l : TraceLine)
  /-- `NOP k` -/
  | nops (k : Nat)
  /-- `FILL a..b` -/
  | fill (a b : Nat)
  /-- `DRAIN k` -/
  | drain (k : Nat)
  /-- `DRAIN k -> v1, ..., vk` -/
  | drainExpect (k : Nat) (vs : List Nat)
  /-- `GETCOUNT -> c` -/
  | getCount (c : Nat)
  /-- `ISEMPTY -> b` -/
  | isEmpty (b : Bool)
  /-- `ISFULL -> b` -/
  | isFull (b : Bool)
  deriving DecidableEq, Repr

/-- A written trace: the parameter N of its first line, if given, and its items in order (30_encoding.md R63). -/
structure Trace where
  capacity : Option Nat
  items : List TraceItem
  deriving DecidableEq, Repr

/-- One call of the source's interface, with the result it is expected to give (30_encoding.md R58, R65). -/
inductive SourceCall where
  | init
  | insert (d : Byte)
  | remove (expected : Option Byte)
  | getCount (c : Nat)
  | isEmpty (b : Bool)
  deriving DecidableEq, Repr

/-- What the source's contexts do at one point (30_encoding.md R65). -/
inductive SourceEvent where
  /-- One call of one context. -/
  | call (c : SourceCall)
  /-- An `insert d` and a `remove` of two contexts, "truly concurrently". -/
  | concurrent (d : Byte) (expected : Option Byte)
  deriving DecidableEq, Repr

end Sys2Proof
end

