-- ==== Sys2Proof/WellFormed.lean ====
section
/-! DEFINITION. What may be written: which instructions a command word can name, which traces keep the notation's
bounds. -/

namespace Sys2Proof

/-- A well-formed instruction is one that a command word can name: a command, not an output function, which has no
encoding (30_encoding.md R57, R58, R60). -/
def Instr.wf (i : Instr) : Bool := i.format == .cmd

/-- A capacity in scope (00_scope.md R7). -/
def capacityWf (n : Nat) : Bool := 1 ≤ n && n ≤ Config.maxCapacity

/-- An expectation fits its port: an element is 0..255, a count is CW bits (30_encoding.md R63, 10_state.md R31). -/
def Expectation.wf : Expectation → Bool
  | .count v => v < 256
  | .empty _ => true
  | .full _ => true
  | .remData v => v < 256

/-- A line holds a command and expectations that fit (30_encoding.md R63). -/
def TraceLine.wf (l : TraceLine) : Bool := l.command.wf && l.expects.all Expectation.wf

/-- The bounds of the notation: `FILL a..b` requires 0 ≤ a ≤ b ≤ 255, `DRAIN k -> ...` lists k values
(30_encoding.md R64). -/
def TraceItem.wf : TraceItem → Bool
  | .line l => l.wf
  | .nops _ => true
  | .fill a b => a ≤ b && b < 256
  | .drain _ => true
  | .drainExpect k vs => vs.length == k && vs.all (· < 256)
  | .getCount c => c < 256
  | .isEmpty _ => true
  | .isFull _ => true

/-- A trace names a capacity in scope, if it names one, and holds well-formed items (30_encoding.md R63). -/
def Trace.wf (t : Trace) : Bool :=
  (match t.capacity with
    | none => true
    | some n => capacityWf n) && t.items.all TraceItem.wf

end Sys2Proof
end

