-- ==== Sys2Proof/Decode.lean ====
section
/-! DEFINITION. Decoding of the command word, total on the 11-bit words and rejecting wider numbers by name; after it
the encoder, written from the same map (30_encoding.md R55 to R62). -/

namespace Sys2Proof

/-- Field `init`, bit 10 (30_encoding.md R55). -/
def wordInit (w : CommandWord) : Bool := w.getLsbD 10

/-- Field `rem`, bit 9 (30_encoding.md R55). -/
def wordRem (w : CommandWord) : Bool := w.getLsbD 9

/-- Field `ins`, bit 8 (30_encoding.md R55). -/
def wordIns (w : CommandWord) : Bool := w.getLsbD 8

/-- The opcode field, bits 10:8 (30_encoding.md R55). -/
def wordOpcode (w : CommandWord) : Opcode := w.extractLsb' 8 3

/-- The operand field `ins_data`, bits 7:0, taken unchanged (30_encoding.md R55, R56). -/
def wordInsData (w : CommandWord) : Byte := w.extractLsb' 0 8

/-- The opcode map: `init` overrides every other bit; bits an instruction does not use are ignored
(30_encoding.md R57, R62). Every word selects a command (R60). -/
def decode (w : CommandWord) : Instr :=
  if wordInit w then .init
  else match wordRem w, wordIns w with
    | false, false => .nop
    | false, true => .ins (wordInsData w)
    | true, false => .rem
    | true, true => .insrem (wordInsData w)

/-- Why a number is no command word. -/
inductive DecodeError where
  /-- It needs more than 11 bits: such words do not exist (30_encoding.md R54; 95_test_vectors.md 2.1). -/
  | widerThanElevenBits (w : Nat)
  deriving DecidableEq, Repr

/-- Decoding of any number: the eleven-bit words by `decode`, the others rejected by name (30_encoding.md R54). -/
def decodeNat (w : Nat) : Except DecodeError Instr :=
  if w < 2 ^ 11 then .ok (decode (BitVec.ofNat 11 w)) else .error (.widerThanElevenBits w)

/-- The command that a word written as in spec/opcode_table.json selects; the rows of format OUT have no word and a
decoder ignores them (30_encoding.md R58; log entry 11). -/
def decodeTableWord (_nbits w : Nat) : Option Instr :=
  match decodeNat w with
  | .ok i => some i
  | .error _ => none

/-- The canonical word of a command, every ignored bit 0; an output function has none (30_encoding.md R57, R58). -/
def encode : Instr → Option CommandWord
  | .nop => some 0x000#11
  | .ins d => some (0b001#3 ++ d)
  | .rem => some 0x200#11
  | .insrem d => some (0b011#3 ++ d)
  | .init => some 0x400#11
  | .count => none
  | .empty => none
  | .full => none
  | .head => none

/-- The opcode map as the spec tabulates it (30_encoding.md R57). -/
def opcodeRows : List OpcodeRow :=
  [ { name := .nop, pattern := 0x000, mask := 0x700 },
    { name := .ins, pattern := 0x100, mask := 0x700 },
    { name := .rem, pattern := 0x200, mask := 0x700 },
    { name := .insrem, pattern := 0x300, mask := 0x700 },
    { name := .init, pattern := 0x400, mask := 0x400 } ]

/-- A word selects a row if `w AND mask = match` (30_encoding.md R57). -/
def OpcodeRow.selects (r : OpcodeRow) (w : CommandWord) : Bool := w &&& r.mask == r.pattern

/-- The command a row names, with the operand the word carries (30_encoding.md R57). -/
def OpcodeRow.command (r : OpcodeRow) (w : CommandWord) : Instr :=
  match r.name with
  | .nop => .nop
  | .ins => .ins (wordInsData w)
  | .rem => .rem
  | .insrem => .insrem (wordInsData w)
  | .init => .init

end Sys2Proof
end

