-- ==== Sys2Proof/Machine/State.lean ====
section
/-! DEFINITION. The state of the block as plain data, the reasons a step can stop, and the state at power-up. -/

namespace Sys2Proof.Machine

/-- The storage array `mem`: the cells written since power-up, addresses strictly rising; a cell not listed is
unwritten and holds no value (10_state.md R16, 20_memory.md R49; log entry 9). -/
abbrev Memory := List Host.Cell

/-- The four output ports (10_state.md R31, 41_queries.md R70). -/
structure Ports where
  count : CountWord
  empty : Bool
  full : Bool
  remData : Byte
  deriving DecidableEq, Repr

/-- A contract violation with the information the spec says is recorded (60_exceptions.md R88 to R91). -/
inductive Violation where
  /-- V1: INS, REM or INSREM in UNINIT. -/
  | useBeforeInit (op : Opcode)
  /-- V2: INS or INSREM with `count = N`. -/
  | overflow (op : Opcode) (data : Byte)
  /-- V3: REM or INSREM with `count = 0`. -/
  | underflow (op : Opcode)
  deriving DecidableEq, Repr

/-- What a model may note at a violation beside it: the cycle and the registers before the edge
(60_exceptions.md R93; log entry 14). -/
structure Diagnostic where
  cycle : Nat
  wrPtr : Nat
  rdPtr : Nat
  count : CountWord
  deriving DecidableEq, Repr

/-- The fault mark of a run: its first violation (60_exceptions.md R97, R100). -/
structure FaultMark where
  violation : Violation
  seen : Diagnostic
  deriving DecidableEq, Repr

/-- Why the machine stops. -/
inductive Fault where
  /-- Raised by INS, REM and INSREM at a contract violation under the policy `fault` (60_exceptions.md R89 to R91, R97).
  Safe: the hardware carries on with undefined consequences. -/
  | violation (v : Violation) (seen : Diagnostic)
  /-- Raised by INS, REM and INSREM in READY when a cursor they use names no cell of 0..N-1 (20_memory.md R36, R39).
  Safe: no run reaches such a state (10_state.md R23). Log entry 10. -/
  | noSuchCell (index : Nat)
  deriving DecidableEq, Repr

/-- Why the machine gives a step no meaning. -/
inductive Refusal where
  /-- Raised by the dispatch for an instruction with no meaning yet; no arm raises it in this model. Safe. -/
  | notModelled (mnemonic : String)
  /-- Raised by the step when the environment's finite command trace has ended (70_reset_and_hazards.md R116).
  Safe: nothing is said about the cycles after it. Log entry 1. -/
  | traceEnded
  deriving DecidableEq, Repr

/-- Everything the spec gives the machine (10_state.md R15), its parameters (00_scope.md R7, 60_exceptions.md R98), the
fault mark (R97), the outputs of the last cycle, the inputs to come, and the model's own counters. -/
structure State where
  /-- N, the capacity: constant of the instance (00_scope.md R7). -/
  capacity : Nat
  /-- MISUSE_POLICY: constant of the instance (60_exceptions.md R98; log entry 5). -/
  policy : MisusePolicy
  /-- `wr_ptr`, the producer cursor, an index (10_state.md R17; log entry 13). -/
  wrPtr : Nat
  /-- `rd_ptr`, the consumer cursor, an index (10_state.md R18; log entry 13). -/
  rdPtr : Nat
  /-- `count`, the number of elements held (10_state.md R19). -/
  count : CountWord
  /-- `mem`, the storage array (10_state.md R16). -/
  mem : Memory
  /-- Ghost bit: false in UNINIT, true in READY (10_state.md R29). -/
  inited : Bool
  /-- The sticky fault mark of the run (60_exceptions.md R97). -/
  mark : Option FaultMark
  /-- What the output ports showed during the cycle that ended last (41_queries.md R70; log entry 11). -/
  out : Ports
  /-- The command words the environment presents in the cycles to come, next one first (00_scope.md R6;
  70_reset_and_hazards.md R116; log entry 1). -/
  trace : List CommandWord
  /-- The model's own: the number of the cycle's draw, one for each port (log entry 7). -/
  draws : Nat
  /-- The cycle index t (00_scope.md R12, 70_reset_and_hazards.md R114; log entry 15). -/
  cycle : Nat
  deriving DecidableEq, Repr

/-- The block right after power-up, in UNINIT: no cell written (10_state.md R33, R29, 70_reset_and_hazards.md R105), the
parameters at their defaults (00_scope.md R7, 92 D16). The registers and the ports are unspecified there; the values
named here are log entry 2's. -/
def State.reset : State where
  capacity := Config.defaultCapacity
  policy := Config.defaultPolicy
  wrPtr := 0
  rdPtr := 0
  count := 0
  mem := []
  inited := false
  mark := none
  out := { count := 0, empty := false, full := false, remData := 0 }
  trace := []
  draws := 0
  cycle := 0

end Sys2Proof.Machine
end

