-- ==== Sys2Proof/Machine/Flags.lean ====
section
/-! DEFINITION. The empty/full flag logic: combinational functions of `count` only (10_state.md R26, R30). -/

namespace Sys2Proof.Machine

/-- `empty`: equality of `count` with 0 (41_queries.md R73). -/
def emptyFlag (count : CountWord) : Bool := count == 0

/-- `full`: equality of `count` with N, not `count ≥ N` (41_queries.md R74). -/
def fullFlag (capacity : Nat) (count : CountWord) : Bool := count.toNat == capacity

end Sys2Proof.Machine
end

