-- ==== Sys2Proof/Machine/Operands.lean ====
section
/-! DEFINITION. The operand forms: the storage cells, the cursors that address them, the counter, the datum. -/

namespace Sys2Proof.Machine

/-! ### Storage (10_state.md R16, 20_memory.md R35 to R49) -/

/-- What the list holds for index `i`; a cell not listed is unwritten and holds no value (20_memory.md R49). -/
def Memory.read : Memory → Nat → Option Byte
  | [], _ => none
  | (a, v) :: m, i => if a = i then some v else Memory.read m i

/-- The list with index `i` holding `v`, addresses still strictly rising (20_memory.md R41). -/
def Memory.write : Memory → Nat → Byte → Memory
  | [], i, v => [(i, v)]
  | (a, u) :: m, i, v =>
    if i < a then (i, v) :: (a, u) :: m
    else if i = a then (i, v) :: m
    else (a, u) :: Memory.write m i v

/-- Addresses strictly rising from `lo` on and below `n`. -/
def Memory.risesFrom (n lo : Nat) : Memory → Bool
  | [] => true
  | (a, _) :: m => decide (lo ≤ a) && decide (a < n) && Memory.risesFrom n (a + 1) m

/-- The canonical form: addresses strictly rising, each one of 0..n-1 (20_memory.md R36). No entry equals what an
unlisted cell reads as, since that is no value. -/
def Memory.wf (n : Nat) (m : Memory) : Bool := Memory.risesFrom n 0 m

/-- `MemRead(i, 1)`: the value of an existing, written cell (20_memory.md R36, R37, R49). -/
def State.readCell (s : State) (i : Nat) : Option Byte :=
  if i < s.capacity then s.mem.read i else none

/-! ### Cursors and count (10_state.md R27, R28) -/

/-- The wraparound address generator: compare with N as natural numbers, no division (10_state.md R27). -/
def inc (capacity c : Nat) : Nat := if c + 1 = capacity then 0 else c + 1

/-- `count + 1` modulo 2^CW (10_state.md R28). -/
def countUp (c : CountWord) : CountWord := c + 1

/-- `count − 1` modulo 2^CW (10_state.md R28). -/
def countDown (c : CountWord) : CountWord := c - 1

/-! ### The datum (30_encoding.md R56, 41_queries.md R75) -/

/-- The element a host supplies from a wider word: its low 8 bits (30_encoding.md R56). -/
def datumOfHost (v : Nat) : Byte := BitVec.ofNat 8 v

/-- The element a host receives into a wider word of `n` bits: zeros above bit 7 (30_encoding.md R56). -/
def datumToHost (n : Nat) (v : Byte) : BitVec n := v.setWidth n

/-- The element at `rd_ptr` where the spec fixes it: READY, not empty, the cell written (41_queries.md R75, R72;
20_memory.md R49; log entry 8). -/
def State.headDatum (s : State) : Option Byte :=
  if s.inited && !emptyFlag s.count then s.readCell s.rdPtr else none

end Sys2Proof.Machine
end

