-- ==== Sys2Proof/Machine/Ops.lean ====
section
/-! DEFINITION. The shared operations: the ports of a cycle, the write port, contract violations, the command cycle. -/

namespace Sys2Proof.Machine

/-! ### The ports of a cycle (41_queries.md R70, R72)

A port has one value in a cycle, the same for every observer, and changes only at the edge (41_queries.md R70, 20_memory.md
R45): where the spec fixes no value it is the cycle's draw, which `draws` numbers (log entries 7 and 17). -/

/-- Port `count`: the register, in UNINIT the cycle's draw (41_queries.md R71, R72). -/
def State.portCount (s : State) : CountWord := if s.inited then s.count else Config.freeCount s.draws

/-- Port `empty`: the flag, in UNINIT the cycle's draw (41_queries.md R73, R72). -/
def State.portEmpty (s : State) : Bool := if s.inited then emptyFlag s.count else Config.freeEmpty s.draws

/-- Port `full`: the flag, in UNINIT the cycle's draw (41_queries.md R74, R72). -/
def State.portFull (s : State) : Bool := if s.inited then fullFlag s.capacity s.count else Config.freeFull s.draws

/-- Port `rem_data`: the element a remove in this cycle returns, the cycle's draw where the spec fixes none
(20_memory.md R42, 41_queries.md R75, R72; log entries 8 and 17). -/
def State.portRemData (s : State) : Byte := s.headDatum.getD (Config.freeDatum s.draws)

/-- What the four ports show during the cycle whose state before the edge is `s`, whatever command is presented and
whether or not it violates the contract (41_queries.md R70, 30_encoding.md R63). -/
def State.cyclePorts (s : State) : Ports :=
  { count := s.portCount, empty := s.portEmpty, full := s.portFull, remData := s.portRemData }

/-- One command cycle but for the command's own effect: the ports show the state before the edge, and the cycle index
and the number of the next cycle's draw advance (30_encoding.md R59, 41_queries.md R72, 70_reset_and_hazards.md R114). -/
def State.tick (s : State) : State :=
  { s with out := s.cyclePorts, draws := s.draws + 1, cycle := s.cycle + 1 }

/-! ### The write port (20_memory.md R41) -/

/-- `MemWrite(i, 1, v)`: one whole cell changes (20_memory.md R37, R41). -/
def State.writeCell (s : State) (i : Nat) (v : Byte) : State := { s with mem := s.mem.write i v }

/-- An access at index `i`, which exists only for i < N (20_memory.md R36; log entry 10). -/
def State.atCell (s : State) (i : Nat) (go : Host.Outcome State Fault Refusal) : Host.Outcome State Fault Refusal :=
  if i < s.capacity then go else .fault (.noSuchCell i)

/-! ### Contract violations (60_exceptions.md R88 to R100) -/

/-- The registers before the edge, noted at a violation (60_exceptions.md R93). -/
def State.diagnostic (s : State) : Diagnostic :=
  { cycle := s.cycle, wrPtr := s.wrPtr, rdPtr := s.rdPtr, count := s.count }

/-- Set the fault mark; a later violation adds nothing (60_exceptions.md R97, R100). -/
def State.setMark (v : Violation) (s : State) : State :=
  { s with mark := s.mark.or (some { violation := v, seen := s.diagnostic }) }

/-- `raise v`: under the policy `fault` the run stops; under `mechanical` the mark is set and the block carries on as
`go` says (60_exceptions.md R97, R98). -/
def State.raise (v : Violation) (go : State → Host.Outcome State Fault Refusal) (s : State) :
    Host.Outcome State Fault Refusal :=
  match s.policy with
  | .fault => .fault (.violation v s.diagnostic)
  | .mechanical => go (s.setMark v)

/-- UNINIT after a command that was not allowed there: every register unspecified, no cell known
(60_exceptions.md R89, 10_state.md R29; log entry 6). The draws are not those of a port in any cycle. -/
def State.scramble (s : State) : State :=
  { s with
    wrPtr := Config.freeWrPtr s.draws % 2 ^ Config.cursorWidth s.capacity
    rdPtr := Config.freeRdPtr s.draws % 2 ^ Config.cursorWidth s.capacity
    count := Config.freeCount s.draws
    mem := []
    draws := s.draws + 1 }

/-- What a command that inserts (`datum`) or removes violates in this state, if anything: V1 before all, then V2, then
V3, by equality with N and with 0 (60_exceptions.md R89 to R91, R96; 30_encoding.md R61; log entry 12). -/
def State.violation (s : State) (op : Opcode) (datum : Option Byte) (removes : Bool) : Option Violation :=
  if s.inited = false then some (.useBeforeInit op)
  else match datum, fullFlag s.capacity s.count with
    | some d, true => some (.overflow op d)
    | _, _ => if removes && emptyFlag s.count then some (.underflow op) else none

/-- A command that inserts or removes: its datapath where the contract is kept; otherwise the violation is raised, and
what carries on is the datapath without its preconditions, in UNINIT the unspecified state
(30_encoding.md R59, 60_exceptions.md R97, R98). -/
def State.underContract (s : State) (op : Opcode) (datum : Option Byte) (removes : Bool)
    (datapath : State → Host.Outcome State Fault Refusal) : Host.Outcome State Fault Refusal :=
  match s.violation op datum removes with
  | none => datapath s
  | some v => s.raise v (if s.inited then datapath else fun u => .next u.tick.scramble)

end Sys2Proof.Machine
end

