-- ==== Sys2Proof/Machine/Concurrent.lean ====
section
/-! DEFINITION. INSREM. -/

namespace Sys2Proof.Machine

/-- The datapath of INSREM, with no test of its preconditions: the element returned is the old one, never `d`; the
count is unchanged (44_concurrent.md R83, R84; 20_memory.md R44). -/
def ustepInsRem (d : Byte) (s : State) : Host.Outcome State Fault Refusal :=
  s.atCell s.wrPtr <| s.atCell s.rdPtr <|
    .next { s.tick.writeCell s.wrPtr d with
      wrPtr := inc s.capacity s.wrPtr
      rdPtr := inc s.capacity s.rdPtr }

/-- INSREM d (44_concurrent.md R83, R84). -/
def execInsRem (d : Byte) (s : State) : Host.Outcome State Fault Refusal :=
  s.underContract 0b011 (some d) true (ustepInsRem d)

end Sys2Proof.Machine
end

