-- ==== Sys2Proof/Machine/Control.lean ====
section
/-! DEFINITION. NOP and INIT. -/

namespace Sys2Proof.Machine

/-- NOP: no register and no cell is written, in UNINIT as in READY (44_concurrent.md R85). -/
def execNop (s : State) : Host.Outcome State Fault Refusal := .next s.tick

/-- INIT: both cursors and the count to 0, READY; no cell is written, nothing is raised, in every state
(40_init.md R67, R68). -/
def execInit (s : State) : Host.Outcome State Fault Refusal :=
  .next { s.tick with wrPtr := 0, rdPtr := 0, count := 0, inited := true }

end Sys2Proof.Machine
end

