-- ==== Sys2Proof/Machine/Insert.lean ====
section
/-! DEFINITION. INS. -/

namespace Sys2Proof.Machine

/-- The datapath of INS, with no test of its precondition (42_insert.md R77; 60_exceptions.md R98). -/
def ustepIns (d : Byte) (s : State) : Host.Outcome State Fault Refusal :=
  s.atCell s.wrPtr <|
    .next { s.tick.writeCell s.wrPtr d with wrPtr := inc s.capacity s.wrPtr, count := countUp s.count }

/-- INS d (42_insert.md R77, R78). -/
def execIns (d : Byte) (s : State) : Host.Outcome State Fault Refusal :=
  s.underContract 0b001 (some d) false (ustepIns d)

end Sys2Proof.Machine
end

