-- ==== Sys2Proof/Machine/Queries.lean ====
section
/-! DEFINITION. COUNT, EMPTY, FULL, HEAD: looking at one port. They take no cycle and change no state of the block
(41_queries.md R70; log entry 11). -/

namespace Sys2Proof.Machine

/-- COUNT (41_queries.md R71, R72). -/
def execCount (s : State) : Host.Outcome State Fault Refusal :=
  .next { s with out := { s.out with count := s.portCount } }

/-- EMPTY (41_queries.md R73, R72). -/
def execEmpty (s : State) : Host.Outcome State Fault Refusal :=
  .next { s with out := { s.out with empty := s.portEmpty } }

/-- FULL (41_queries.md R74, R72). -/
def execFull (s : State) : Host.Outcome State Fault Refusal :=
  .next { s with out := { s.out with full := s.portFull } }

/-- HEAD (41_queries.md R75, R72). -/
def execHead (s : State) : Host.Outcome State Fault Refusal :=
  .next { s with out := { s.out with remData := s.portRemData } }

end Sys2Proof.Machine
end

