-- ==== Sys2Proof/Machine/Remove.lean ====
section
/-! DEFINITION. REM. -/

namespace Sys2Proof.Machine

/-- The datapath of REM, with no test of its precondition; the element returned is what the port `rem_data` shows in
this cycle (43_remove.md R80, R81; 60_exceptions.md R98). -/
def ustepRem (s : State) : Host.Outcome State Fault Refusal :=
  s.atCell s.rdPtr <|
    .next { s.tick with rdPtr := inc s.capacity s.rdPtr, count := countDown s.count }

/-- REM (43_remove.md R80, R81). -/
def execRem (s : State) : Host.Outcome State Fault Refusal :=
  s.underContract 0b010 none true ustepRem

end Sys2Proof.Machine
end

