-- ==== Sys2Proof/Machine/Dispatch.lean ====
section
/-! DEFINITION. The dispatch: one arm per instruction (30_encoding.md R59). -/

namespace Sys2Proof.Machine

def exec (i : Instr) (s : State) : Host.Outcome State Fault Refusal :=
  match i with
  | .nop => Sys2Proof.Machine.execNop s
  | .ins d => Sys2Proof.Machine.execIns d s
  | .rem => Sys2Proof.Machine.execRem s
  | .insrem d => Sys2Proof.Machine.execInsRem d s
  | .init => Sys2Proof.Machine.execInit s
  | .count => Sys2Proof.Machine.execCount s
  | .empty => Sys2Proof.Machine.execEmpty s
  | .full => Sys2Proof.Machine.execFull s
  | .head => Sys2Proof.Machine.execHead s

end Sys2Proof.Machine
end

