-- ==== Sys2Proof/Machine/Step.lean ====
section
/-! DEFINITION. One step: the command word of the cycle is sampled, decoded and executed (30_encoding.md R53, R59). -/

namespace Sys2Proof.Machine

/-- One clock cycle: the next word of the environment's trace is executed; a trace that has ended says nothing about a
next cycle (00_scope.md R6, 70_reset_and_hazards.md R116; log entry 1). -/
def step (s : State) : Host.Outcome State Fault Refusal :=
  match s.trace with
  | [] => .refused .traceEnded
  | w :: rest => exec (decode w) { s with trace := rest }

/-- The state in which the environment presents the word `w` in the next cycle, in place of what it would have
presented there (log entry 1). -/
def State.withFetchWord (s : State) (_nbits w : Nat) : State :=
  { s with trace := BitVec.ofNat 11 w :: s.trace.drop 1 }

end Sys2Proof.Machine
end

