-- ==== Sys2Proof/Machine/Trace.lean ====
section
/-! DEFINITION. The trace notation: pseudo-commands and their expansion, source calls as traces, loading and playing a
trace (30_encoding.md R63 to R65). -/

namespace Sys2Proof.Machine

/-- A line with a command and no expectation. -/
def plainLine (i : Instr) : TraceLine := { command := i, expects := [] }

/-- The lines an item stands for, one cycle each (30_encoding.md R63, R64). The query pseudo-commands take no cycle. -/
def itemLines : TraceItem → List TraceLine
  | .line l => [l]
  | .nops k => List.replicate k (plainLine .nop)
  | .fill a b => (List.range (b + 1 - a)).map fun j => plainLine (.ins (datumOfHost (a + j)))
  | .drain k => List.replicate k (plainLine .rem)
  | .drainExpect _ vs => vs.map fun v => { command := .rem, expects := [.remData v] }
  | .getCount _ => []
  | .isEmpty _ => []
  | .isFull _ => []

/-- The expectation a query pseudo-command attaches to the next line (30_encoding.md R64). -/
def itemQuery : TraceItem → List Expectation
  | .line _ => []
  | .nops _ => []
  | .fill _ _ => []
  | .drain _ => []
  | .drainExpect _ _ => []
  | .getCount c => [.count c]
  | .isEmpty b => [.empty b]
  | .isFull b => [.full b]

/-- The lines of a list of items; `waiting` are the queries not yet attached, which a final NOP takes if no line
follows (30_encoding.md R64). -/
def expandItems : List TraceItem → List Expectation → List TraceLine
  | [], [] => []
  | [], e :: es => [{ command := .nop, expects := e :: es }]
  | it :: rest, waiting =>
    match itemLines it with
    | [] => expandItems rest (waiting ++ itemQuery it)
    | l :: ls => { l with expects := waiting ++ l.expects } :: ls ++ expandItems rest []

/-- The lines of a written trace, in order from cycle 0 (30_encoding.md R63). -/
def traceLines (t : Trace) : List TraceLine := expandItems t.items []

/-- The canonical command words of some lines (30_encoding.md R57, R63). -/
def lineWords (ls : List TraceLine) : List CommandWord := ls.filterMap fun l => encode l.command

/-- The value a `remove` call is to return is the `rem_data` of its cycle (30_encoding.md R65). -/
def returns : Option Byte → List Expectation
  | none => []
  | some v => [.remData v.toNat]

/-- One source call of one context as an item of a trace (30_encoding.md R65). -/
def callItem : SourceCall → TraceItem
  | .init => .line (plainLine .init)
  | .insert d => .line (plainLine (.ins d))
  | .remove expected => .line { command := .rem, expects := returns expected }
  | .getCount c => .getCount c
  | .isEmpty b => .isEmpty b

/-- The ways to write one event: a call has one, a concurrent insert and remove three, the line INSREM and the two lines
in either order (30_encoding.md R65). -/
def eventItems : SourceEvent → List (List TraceItem)
  | .call c => [[callItem c]]
  | .concurrent d expected =>
    [ [.line { command := .insrem d, expects := returns expected }],
      [callItem (.insert d), callItem (.remove expected)],
      [callItem (.remove expected), callItem (.insert d)] ]

/-- The ways to write a sequence of events, in call order (30_encoding.md R65). -/
def eventsItems : List SourceEvent → List (List TraceItem)
  | [] => [[]]
  | e :: es => (eventItems e).flatMap fun items => (eventsItems es).map (items ++ ·)

/-- Idle NOP cycles put before the items of a trace, as many as `idle` says at each place (30_encoding.md R65). -/
def withIdle : List Nat → List TraceItem → List TraceItem
  | [], items => items
  | k :: _, [] => [.nops k]
  | k :: ks, it :: items => .nops k :: it :: withIdle ks items

/-- The instance a trace names, in the given state but for N and the words to come (30_encoding.md R63). -/
def loadTrace (t : Trace) (s : State) : State :=
  { s with capacity := t.capacity.getD s.capacity, trace := lineWords (traceLines t) }

/-- Does a cycle's outputs meet an expectation (30_encoding.md R63)? -/
def meets (p : Ports) : Expectation → Bool
  | .count v => p.count.toNat == v
  | .empty v => p.empty == v
  | .full v => p.full == v
  | .remData v => p.remData.toNat == v

/-- Play the lines whose words the state holds: where the run ends, and whether every line up to there found its
expectations met. They are on the outputs before the edge, so a line whose command faults is tested like any other; a
line for which no word is presented has no cycle, and the trace is not met (30_encoding.md R63). -/
def playLines : List TraceLine → State → Host.Outcome State Fault Refusal × Bool
  | [], s => (.next s, true)
  | l :: ls, s =>
    let met := l.expects.all (meets s.cyclePorts)
    match step s with
    | .next t =>
      let rest := playLines ls t
      (rest.1, met && rest.2)
    | .fault r => (.fault r, met)
    | .refused r => (.refused r, false)

end Sys2Proof.Machine
end

