-- ==== Sys2Proof/Safety.lean ====
section
/-! DEFINITION. What claims are stated in: the contents of the buffer, the invariants, the contract, good runs. -/

namespace Sys2Proof.Machine

/-- The state as the spec writes it, s = (wr_ptr, rd_ptr, count, mem, inited) (10_state.md R15). -/
structure Arch where
  wrPtr : Nat
  rdPtr : Nat
  count : CountWord
  mem : Memory
  inited : Bool
  deriving DecidableEq, Repr

/-- The architectural part of a state (10_state.md R15). -/
def State.arch (s : State) : Arch :=
  { wrPtr := s.wrPtr, rdPtr := s.rdPtr, count := s.count, mem := s.mem, inited := s.inited }

/-- `contents(s)`: the `count` cells from `rd_ptr` on, oldest first, wrapping at N; a cell never written would stand
as `none` (10_state.md R25). -/
def State.contents (s : State) : List (Option Byte) :=
  (List.range s.count.toNat).map fun k => s.readCell ((s.rdPtr + k) % s.capacity)

/-- A READY state on a run without violation (10_state.md R22). -/
def State.Unviolated (s : State) : Prop := s.inited = true ∧ s.mark = none

/-- What holds of every state a run can reach. -/
structure State.Inv (s : State) : Prop where
  /-- 1 ≤ N ≤ 255 (00_scope.md R7). -/
  capacity_wf : capacityWf s.capacity = true
  /-- Storage keeps its canonical form, its addresses 0..N-1 (20_memory.md R36). -/
  mem_wf : s.mem.wf s.capacity = true
  /-- In UNINIT no cell is written and a cursor is AW bits (10_state.md R29, R33). -/
  uninit : s.inited = false →
    s.mem = [] ∧ s.wrPtr < 2 ^ Config.cursorWidth s.capacity ∧ s.rdPtr < 2 ^ Config.cursorWidth s.capacity
  /-- Cursor validity in READY, violated contract or not (10_state.md R23). -/
  cursors : s.inited = true → s.wrPtr < s.capacity ∧ s.rdPtr < s.capacity
  /-- Count range (10_state.md R22). -/
  count_le : s.Unviolated → s.count.toNat ≤ s.capacity
  /-- Cursor distance (10_state.md R24). -/
  distance : s.Unviolated → s.wrPtr = (s.rdPtr + s.count.toNat) % s.capacity
  /-- Every element held has been written (20_memory.md R49). -/
  written : s.Unviolated → none ∉ s.contents

/-- A reachable READY state on a run without violation: what R79, R82 and R86 call an unviolated READY state. -/
def State.Good (s : State) : Prop := s.Inv ∧ s.Unviolated

/-- The environment keeps the contract with this instruction in this state (60_exceptions.md R88, O1 to O3). -/
def State.Allows (s : State) (i : Instr) : Prop :=
  (i.inserted.isSome = true → s.inited = true ∧ s.count.toNat < s.capacity) ∧
  (i.removes = true → s.inited = true ∧ 0 < s.count.toNat)

/-- The level a contract-keeping environment knows of: `none` in UNINIT, the number of elements held in READY; the
answer is `none` where the command breaks the contract (60_exceptions.md R88, 90_conflicts.md C10). -/
def levelAfter (capacity : Nat) (level : Option Nat) (i : Instr) : Option (Option Nat) :=
  match i, level with
  | .init, _ => some (some 0)
  | .nop, l => some l
  | .count, l => some l
  | .empty, l => some l
  | .full, l => some l
  | .head, l => some l
  | .ins _, some c => if c < capacity then some (some (c + 1)) else none
  | .ins _, none => none
  | .rem, some c => if 0 < c then some (some (c - 1)) else none
  | .rem, none => none
  | .insrem _, some c => if 0 < c ∧ c < capacity then some (some c) else none
  | .insrem _, none => none

/-- Every command of a trace keeps the contract, from a level on (60_exceptions.md R88; 90_conflicts.md C10). -/
def keepsContract (capacity : Nat) : Option Nat → List Instr → Bool
  | _, [] => true
  | level, i :: is =>
    match levelAfter capacity level i with
    | some next => keepsContract capacity next is
    | none => false

/-- The level of a state: `none` in UNINIT (10_state.md R29). -/
def State.level (s : State) : Option Nat := if s.inited then some s.count.toNat else none

/-- The commands the environment presents in the next `k` cycles. -/
def State.commands (s : State) (k : Nat) : List Instr := (s.trace.take k).map decode

/-- The elements presented for insertion by some commands, in order. -/
def insertedBy (is : List Instr) : List Byte := is.filterMap Instr.inserted

/-- The elements a command returned, `t` the state after its cycle: the `rem_data` of the cycle (43_remove.md R80). -/
def returnedBy (i : Instr) (t : State) : List Byte := if i.removes then [t.out.remData] else []

/-- A run of `k` cycles in which every step is taken and no violation is recorded: its end and the elements its
removes returned, in order (70_reset_and_hazards.md R116). -/
def goodRun : Nat → State → Option (State × List Byte)
  | 0, s => some (s, [])
  | k + 1, s =>
    match s.trace, step s with
    | w :: _, .next t =>
      if t.mark = none then (goodRun k t).map fun r => (r.1, returnedBy (decode w) t ++ r.2) else none
    | _, _ => none

/-- Two states a client cannot tell apart: they agree on everything but the registers and cells of an uninitialised
block, the position of the cursors and the cells outside the contents (10_state.md R32). -/
structure State.Alike (s t : State) : Prop where
  capacity : s.capacity = t.capacity
  policy : s.policy = t.policy
  inited : s.inited = t.inited
  out : s.out = t.out
  trace : s.trace = t.trace
  draws : s.draws = t.draws
  cycle : s.cycle = t.cycle
  count : s.inited = true → s.count = t.count
  contents : s.inited = true → s.contents = t.contents

/-- What no command changes that keeps the contract, and the cycle it takes (70_reset_and_hazards.md R114). -/
structure State.CommandFrame (s t : State) : Prop where
  capacity : t.capacity = s.capacity
  policy : t.policy = s.policy
  mark : t.mark = s.mark
  trace : t.trace = s.trace
  cycle : t.cycle = s.cycle + 1

/-- What looking at a port changes nothing of (41_queries.md R70). -/
structure State.QueryFrame (s t : State) : Prop where
  arch : t.arch = s.arch
  capacity : t.capacity = s.capacity
  policy : t.policy = s.policy
  mark : t.mark = s.mark
  trace : t.trace = s.trace
  cycle : t.cycle = s.cycle

/-- The ports of the cycle that led to `t` showed the READY state `s` before the edge (41_queries.md R70). -/
structure State.ShowsOutputs (s t : State) : Prop where
  count : t.out.count = s.count
  empty : t.out.empty = true ↔ s.count = 0
  full : t.out.full = true ↔ s.count.toNat = s.capacity
  remData : ∀ v, s.count ≠ 0 → s.readCell s.rdPtr = some v → t.out.remData = v

/-- `k` NOP cycles in a row, from any state. -/
def nopCycles : Nat → State → Host.Outcome State Fault Refusal
  | 0, s => .next s
  | k + 1, s =>
    match exec .nop s with
    | .next t => nopCycles k t
    | .fault r => .fault r
    | .refused r => .refused r

end Sys2Proof.Machine
end

