-- ==== Sys2Proof/Certificates/Slice0/Obligations.lean ====
section
/-! DEFINITION. The statements for the provers. -/

open Sys2Proof Sys2Proof.Machine

/-! ### Encoding -/

/-- The decoding vectors of 95_test_vectors.md 2.1, written from 30_encoding.md R55. -/
def Obligations.WordsOfTheVectorsDecode : Prop :=
  decode 0b00000000000#11 = .nop ∧ decode 0b00011111111#11 = .nop ∧
  decode 0b00100000000#11 = .ins 0 ∧ decode 0b00100001010#11 = .ins 10 ∧ decode 0b00111111111#11 = .ins 255 ∧
  decode 0b01000000000#11 = .rem ∧ decode 0b01010100101#11 = .rem ∧
  decode 0b01100000000#11 = .insrem 0 ∧ decode 0b01111111111#11 = .insrem 255 ∧
  decode 0b10000000000#11 = .init ∧ decode 0b10100000001#11 = .init ∧ decode 0b11010100101#11 = .init ∧
  decode 0b11111111111#11 = .init

/-- Decode and encode agree on every command, with every datum (30_encoding.md R55 to R57). -/
def Obligations.DecodeOfEncodeIsTheCommand : Prop :=
  ∀ i : Instr, i.wf = true → ∃ w, encode i = some w ∧ decode w = i

/-- The opcode map (30_encoding.md R57): every word selects exactly one row and decodes to that row's command, each
opcode value to its mnemonic, and the canonical words are those the rule lists. -/
def Obligations.EveryWordSelectsExactlyOneRow : Prop :=
  (∀ w : CommandWord, ∃ r ∈ opcodeRows, r.selects w = true ∧ decode w = r.command w ∧
    ∀ q ∈ opcodeRows, q.selects w = true → q = r) ∧
  (∀ w : CommandWord,
    (wordOpcode w = 0b000 → decode w = .nop) ∧
    (wordOpcode w = 0b001 → decode w = .ins (wordInsData w)) ∧
    (wordOpcode w = 0b010 → decode w = .rem) ∧
    (wordOpcode w = 0b011 → decode w = .insrem (wordInsData w)) ∧
    (0b100 ≤ wordOpcode w → decode w = .init)) ∧
  (encode .nop = some 0x000 ∧ encode .rem = some 0x200 ∧ encode .init = some 0x400 ∧
    ∀ d : Byte, encode (.ins d) = some (0x100 + d.setWidth 11) ∧ encode (.insrem d) = some (0x300 + d.setWidth 11))

/-- Ignored bits have no effect on the next state or on any output (30_encoding.md R62). -/
def Obligations.IgnoredBitsHaveNoEffect : Prop :=
  ∀ (s : State) (w v : CommandWord) (rest : List CommandWord),
    (wordOpcode w = 0b000 ∧ wordOpcode v = 0b000) ∨ (wordOpcode w = 0b010 ∧ wordOpcode v = 0b010) ∨
      (wordInit w = true ∧ wordInit v = true) →
    step { s with trace := w :: rest } = step { s with trace := v :: rest }

/-- A decoder is total on the eleven-bit words (30_encoding.md R60), and a wider number is no command word (R54). That it
is rejected, and by which name, is the model's choice (DESIGN CHOICE, log entry 11). -/
def Obligations.ElevenBitWordsAndNoOthersDecode : Prop :=
  (∀ w : CommandWord, decodeNat w.toNat = .ok (decode w)) ∧
  ∀ n : Nat, 2048 ≤ n → decodeNat n = .error (.widerThanElevenBits n)

/-- The datum goes in and comes out unchanged, zeros above bit 7 in a wider host word (30_encoding.md R56, 20_memory.md
R38). -/
def Obligations.DatumPassesUnchanged : Prop :=
  (∀ k : Nat, (datumOfHost k).toNat = k % 256) ∧
  (∀ (v : Byte) (n : Nat), 8 ≤ n → (datumToHost n v).toNat = v.toNat) ∧
  (∀ d : Byte, (encode (.ins d)).map wordInsData = some d ∧ (encode (.insrem d)).map wordInsData = some d)

/-! ### The step -/

/-- A step samples the next word and runs the command it decodes to on the state without that word; a trace that has
ended is refused (30_encoding.md R53, R59; the refusal is log entry 1's). -/
def Obligations.StepRunsTheDecodedCommand : Prop :=
  ∀ s : State,
    (∀ w rest, s.trace = w :: rest → step s = exec (decode w) { s with trace := rest }) ∧
    (s.trace = [] → step s = .refused .traceEnded)

/-- A command's canonical word, presented in the next cycle, runs that command (30_encoding.md R57, R59; how a word is
presented is log entry 1's). -/
def Obligations.PresentedCommandRuns : Prop :=
  ∀ (s : State) (i : Instr) (w : CommandWord), encode i = some w →
    step (s.withFetchWord 11 w.toNat) = exec i { s with trace := s.trace.drop 1 }

/-- Every command that answers a next state takes exactly one cycle, in every state; an output function takes none; a
step consumes one word (70_reset_and_hazards.md R114, 41_queries.md R70, 30_encoding.md R53). -/
def Obligations.EveryCommandTakesOneCycle : Prop :=
  (∀ i s t, exec i s = .next t → t.trace = s.trace ∧
    t.cycle = match i.format with | .cmd => s.cycle + 1 | .out => s.cycle) ∧
  ∀ s t, step s = .next t → t.cycle = s.cycle + 1 ∧ s.trace.length = t.trace.length + 1

/-! ### Cursors and count -/

/-- The wraparound address generator, and that nothing else moves a cursor but INIT's 0 (10_state.md R27). -/
def Obligations.CursorsAdvanceByOneAndWrap : Prop :=
  (∀ n c, c < n → inc n c = (if c + 1 = n then 0 else c + 1) ∧ inc n c = (c + 1) % n ∧ inc n c < n) ∧
  inc 1 0 = 0 ∧
  ∀ i s t, s.inited = true → exec i s = .next t →
    (t.wrPtr = s.wrPtr ∨ t.wrPtr = inc s.capacity s.wrPtr ∨ (i = .init ∧ t.wrPtr = 0)) ∧
    (t.rdPtr = s.rdPtr ∨ t.rdPtr = inc s.capacity s.rdPtr ∨ (i = .init ∧ t.rdPtr = 0))

/-- Applying `inc` N times returns the cursor (95_test_vectors.md 2.2, from 10_state.md R27). -/
def Obligations.NAdvancesReturnTheCursor : Prop :=
  ∀ n c, c < n → (inc n)^[n] c = c

/-- Count arithmetic is modulo 2^8, and under the contract nothing wraps (10_state.md R28). -/
def Obligations.CountArithmeticIsModuloTwoToTheCW : Prop :=
  (∀ c : CountWord, (countUp c).toNat = (c.toNat + 1) % 256 ∧ (countDown c).toNat = (c.toNat + 255) % 256) ∧
  ∀ (n : Nat) (c : CountWord), capacityWf n = true →
    (c.toNat < n → (countUp c).toNat = c.toNat + 1) ∧
    (0 < c.toNat → (countDown c).toNat = c.toNat - 1)

/-- Which command writes which register with what (the table of 10_state.md R20), in every READY state in which the
command answers a next state. -/
def Obligations.WhoWritesWhichRegister : Prop :=
  ∀ i s t, s.inited = true → exec i s = .next t →
    t.wrPtr = (if i = .init then 0 else if i.inserted.isSome then inc s.capacity s.wrPtr else s.wrPtr) ∧
    t.rdPtr = (if i = .init then 0 else if i.removes then inc s.capacity s.rdPtr else s.rdPtr) ∧
    t.count = (if i = .init then 0
      else if i.inserted.isSome = true ∧ i.removes = false then s.count + 1
      else if i.inserted = none ∧ i.removes = true then s.count - 1
      else s.count)

/-- In every READY state the cursors are valid indices, violated contract or not (10_state.md R23). -/
def Obligations.CursorsStayValidWithoutContract : Prop :=
  ∀ i s t, 0 < s.capacity → (s.inited = true → s.wrPtr < s.capacity ∧ s.rdPtr < s.capacity) →
    exec i s = .next t → t.inited = true → t.wrPtr < t.capacity ∧ t.rdPtr < t.capacity

/-- INIT makes READY and nothing leaves it (10_state.md R29), and N is a constant (00_scope.md R7). That the misuse policy
of 60_exceptions.md R98 is a constant of the instance is the model's choice (DESIGN CHOICE, log entry 5). -/
def Obligations.ReadyIsEnteredByInitAndNeverLeft : Prop :=
  ∀ i s t, exec i s = .next t →
    (t.inited = true ↔ s.inited = true ∨ i = .init) ∧ t.capacity = s.capacity ∧ t.policy = s.policy

/-! ### Storage -/

/-- The write port: INS and INSREM write `ins_data` at `wr_ptr`, whatever `count` is, and in every other cycle no cell
changes (20_memory.md R41). -/
def Obligations.OnlyTheCellAtTheWriteCursorChanges : Prop :=
  ∀ i s t, s.inited = true → exec i s = .next t →
    (∀ a, i.inserted = none ∨ a ≠ s.wrPtr → t.readCell a = s.readCell a) ∧
    ∀ d, i.inserted = some d → t.readCell s.wrPtr = some d

/-- A cell holds what an insert wrote until N inserts later (20_memory.md R48): over a good run with no INIT and fewer
than N inserts after that insert, the cell still reads as written. -/
def Obligations.WrittenCellLastsUntilNInsertsLater : Prop :=
  ∀ s d s' k t vs, s.Good → exec (.ins d) s = .next s' → s'.mark = none → goodRun k s' = some (t, vs) →
    Instr.init ∉ s'.commands k → (insertedBy (s'.commands k)).length < s.capacity →
    t.readCell s.wrPtr = some d

/-! ### Outputs -/

/-- The outputs of a cycle are those of the state before the edge, the same under every command, and looking at them
takes no cycle and changes no state (41_queries.md R70). -/
def Obligations.OutputsAreThoseBeforeTheEdge : Prop :=
  (∀ i s t, i.wf = true → s.inited = true → exec i s = .next t → s.ShowsOutputs t) ∧
  (∀ i j s t u, i.wf = true → j.wf = true → exec i s = .next t → exec j s = .next u → t.out = u.out) ∧
  ∀ i s, i.wf = false → ∃ t, exec i s = .next t ∧ s.QueryFrame t

/-- COUNT shows the count register, 0..N on a run without violation, and nothing else changes (41_queries.md R71). -/
def Obligations.CountShowsTheRegister : Prop :=
  ∀ s : State, s.inited = true →
    exec .count s = .next { s with out := { s.out with count := s.count } } ∧ (s.Good → s.count.toNat ≤ s.capacity)

/-- EMPTY shows whether count is 0, and nothing else changes (41_queries.md R73). -/
def Obligations.EmptyShowsWhetherCountIsZero : Prop :=
  ∀ s : State, s.inited = true →
    exec .empty s = .next { s with out := { s.out with empty := decide (s.count.toNat = 0) } }

/-- FULL shows whether count is N, by equality and not by magnitude, and nothing else changes (41_queries.md R74). -/
def Obligations.FullShowsWhetherCountIsN : Prop :=
  ∀ s : State, s.inited = true →
    exec .full s = .next { s with out := { s.out with full := decide (s.count.toNat = s.capacity) } }

/-- HEAD shows the oldest element held, and nothing else changes (41_queries.md R75): on a run without violation the
first of the contents; in every READY state, a violation before or not, what a written cell at `rd_ptr` holds while the
count is not 0. -/
def Obligations.HeadShowsTheOldestElement : Prop :=
  (∀ s : State, s.Good → 0 < s.count.toNat →
    ∃ v, s.contents.head? = some (some v) ∧ exec .head s = .next { s with out := { s.out with remData := v } }) ∧
  ∀ (s : State) (v : Byte), s.inited = true → s.count ≠ 0 → s.readCell s.rdPtr = some v →
    exec .head s = .next { s with out := { s.out with remData := v } }

/-- Where the spec fixes no value a port shows the cycle's draw (log entry 7): every port in UNINIT (41_queries.md R72),
`rem_data` while empty or at a cell never written too (R75, 20_memory.md R49); looking changes nothing but the record of
what was seen, and every command leads to a cycle with another draw. -/
def Obligations.UnspecifiedPortsShowFreshDraws : Prop :=
  (∀ s : State, s.inited = false →
    exec .count s = .next { s with out := { s.out with count := Config.freeCount s.draws } } ∧
    exec .empty s = .next { s with out := { s.out with empty := Config.freeEmpty s.draws } } ∧
    exec .full s = .next { s with out := { s.out with full := Config.freeFull s.draws } }) ∧
  (∀ s : State, s.inited = false ∨ s.count = 0 ∨ s.readCell s.rdPtr = none →
    exec .head s = .next { s with out := { s.out with remData := Config.freeDatum s.draws } }) ∧
  ∀ i s t, i.wf = true → exec i s = .next t → s.draws < t.draws

/-- Every observer sees the same values in the same cycle (20_memory.md R45 a, 41_queries.md R70), in UNINIT too: each
look shows the port of the cycle, a look changes neither what the ports show nor what any command then does, and the
command of the cycle is recorded with the same four values. Where the spec fixes no value, that they agree rests on the
model's one draw for each port and cycle (DESIGN CHOICE, log entry 7); for `rem_data` at an empty or unwritten cell, where
20_memory.md R49 promises no equality between two reads, it is the model's reading (DEDUCED, log entry 17). -/
def Obligations.EveryObserverSeesTheSamePorts : Prop :=
  ∀ s : State,
    exec .count s = .next { s with out := { s.out with count := s.cyclePorts.count } } ∧
    exec .empty s = .next { s with out := { s.out with empty := s.cyclePorts.empty } } ∧
    exec .full s = .next { s with out := { s.out with full := s.cyclePorts.full } } ∧
    exec .head s = .next { s with out := { s.out with remData := s.cyclePorts.remData } } ∧
    (∀ q a, q.wf = false → exec q s = .next a →
      a.cyclePorts = s.cyclePorts ∧ ∀ i, i.wf = true → exec i a = exec i s) ∧
    ∀ i t, i.wf = true → exec i s = .next t → t.out = s.cyclePorts

/-- Relations between the outputs in READY (41_queries.md R76): `empty` and `full` exclude each other, each follows
`count`, and N − count (count) is the number of further INS (REM) that keep the contract. -/
def Obligations.RelationsBetweenTheOutputs : Prop :=
  ∀ s t : State, capacityWf s.capacity = true → s.inited = true → exec .nop s = .next t →
    (t.out.empty = true → t.out.full = false) ∧ (t.out.full = true → t.out.empty = false) ∧
    (t.out.empty = true ↔ t.out.count.toNat = 0) ∧ (t.out.full = true ↔ t.out.count.toNat = s.capacity) ∧
    (s.Good →
      (∀ ds : List Byte, keepsContract s.capacity s.level (ds.map Instr.ins) = true ↔
        ds.length ≤ s.capacity - t.out.count.toNat) ∧
      ∀ k : Nat, keepsContract s.capacity s.level (List.replicate k Instr.rem) = true ↔ k ≤ t.out.count.toNat)

/-- A command shows in the next cycle, not in its own: an insert into an empty buffer leaves `empty = 1` in its cycle,
and the element can be removed in the next (70_reset_and_hazards.md R110, 20_memory.md R44, R45). -/
def Obligations.InsertedElementIsVisibleInTheNextCycle : Prop :=
  ∀ (s : State) (d : Byte), s.Good → s.count = 0 →
    ∃ t u, exec (.ins d) s = .next t ∧ t.out.empty = true ∧ t.out.count = 0 ∧
      exec .rem t = .next u ∧ u.out.empty = false ∧ u.out.remData = d ∧ u.mark = none

/-! ### INIT and NOP -/

/-- INIT from every state (40_init.md R69): READY, both cursors and count 0, storage unchanged, no contents, the
invariants R22 to R24, the outputs of an empty buffer, and a second INIT changes nothing; nothing else changes. -/
def Obligations.InitGivesTheEmptyBufferFromEveryState : Prop :=
  ∀ s : State, ∃ t, exec .init s = .next t ∧ s.CommandFrame t ∧
    t.inited = true ∧ t.wrPtr = 0 ∧ t.rdPtr = 0 ∧ t.count = 0 ∧ t.mem = s.mem ∧ t.contents = [] ∧
    (capacityWf s.capacity = true →
      t.count.toNat ≤ t.capacity ∧ t.wrPtr < t.capacity ∧ t.rdPtr < t.capacity ∧
      t.wrPtr = (t.rdPtr + t.count.toNat) % t.capacity ∧
      ∃ u, exec .nop t = .next u ∧ u.out.empty = true ∧ u.out.full = false ∧ u.out.count = 0) ∧
    ∃ u, exec .init t = .next u ∧ u.arch = t.arch

/-- INIT together with `ins` or `rem`: the other bits are ignored, no cell is written, count goes to 0 and not to 1,
nothing is raised (40_init.md R68). -/
def Obligations.InitOverridesInsertAndRemove : Prop :=
  ∀ (s : State) (w : CommandWord) (rest : List CommandWord), s.trace = w :: rest → wordInit w = true →
    ∃ t, step s = .next t ∧ t.count = 0 ∧ t.wrPtr = 0 ∧ t.rdPtr = 0 ∧ t.inited = true ∧ t.mark = s.mark ∧
      t.mem = s.mem ∧ t.trace = rest

/-- NOP changes no state, in UNINIT as in READY (44_concurrent.md R85). -/
def Obligations.NopChangesNothing : Prop :=
  ∀ s : State, ∃ t, exec .nop s = .next t ∧ t.arch = s.arch ∧ s.CommandFrame t

/-- Any number of NOP cycles may stand between two commands without changing a later state or output
(44_concurrent.md R85): a command the contract allows has the same effect after them, and returns the same element. -/
def Obligations.NopCyclesChangeNoLaterState : Prop :=
  ∀ (s : State) (k : Nat) (i : Instr) (t : State), s.Allows i → exec i s = .next t →
    ∃ u t', nopCycles k s = .next u ∧ exec i u = .next t' ∧ t'.arch = t.arch ∧ t'.mark = t.mark ∧
      (i.wf = true → s.Good → 0 < s.count.toNat → t'.out = t.out)

/-! ### INS, REM, INSREM under the contract -/

/-- INS d (42_insert.md R77): the cell at `wr_ptr` holds `d`, the cursor advances and wraps, the count goes up by one;
`empty` becomes 0 and `full` becomes 1 exactly when the count was N − 1; nothing else changes. -/
def Obligations.InsertWritesAdvancesAndCounts : Prop :=
  ∀ (s : State) (d : Byte), capacityWf s.capacity = true → s.inited = true → s.count.toNat < s.capacity →
    s.wrPtr < s.capacity →
    ∃ t, exec (.ins d) s = .next t ∧ s.CommandFrame t ∧ s.ShowsOutputs t ∧
      t.wrPtr = (if s.wrPtr + 1 = s.capacity then 0 else s.wrPtr + 1) ∧ t.count.toNat = s.count.toNat + 1 ∧
      t.rdPtr = s.rdPtr ∧ t.inited = true ∧
      t.readCell s.wrPtr = some d ∧ (∀ a, a ≠ s.wrPtr → t.readCell a = s.readCell a) ∧
      emptyFlag t.count = false ∧ (fullFlag t.capacity t.count = true ↔ s.count.toNat + 1 = s.capacity)

/-- A legal INS appends its element (42_insert.md R79). -/
def Obligations.InsertAppendsTheElement : Prop :=
  ∀ (s : State) (d : Byte), s.Good → s.count.toNat < s.capacity →
    ∃ t, exec (.ins d) s = .next t ∧
      t.contents = s.contents ++ [some d] ∧ t.count.toNat = s.count.toNat + 1 ∧ t.count.toNat ≤ s.capacity ∧
      t.rdPtr = s.rdPtr ∧ t.wrPtr = (s.wrPtr + 1) % s.capacity ∧
      (∀ a, a ≠ s.wrPtr → t.readCell a = s.readCell a) ∧
      (∀ k, k < s.count.toNat → (s.rdPtr + k) % s.capacity ≠ s.wrPtr) ∧
      t.wrPtr < t.capacity ∧ t.rdPtr < t.capacity ∧ t.wrPtr = (t.rdPtr + t.count.toNat) % t.capacity

/-- REM (43_remove.md R80): the port `rem_data` of the cycle shows the cell at `rd_ptr`, the cursor advances and wraps,
the count goes down by one; `full` becomes 0 and `empty` becomes 1 exactly when the count was 1; nothing else changes,
no cell either. -/
def Obligations.RemoveReturnsAdvancesAndCounts : Prop :=
  ∀ (s : State), capacityWf s.capacity = true → s.inited = true → 0 < s.count.toNat → s.count.toNat ≤ s.capacity →
    s.rdPtr < s.capacity →
    ∃ t, exec .rem s = .next t ∧ s.CommandFrame t ∧ s.ShowsOutputs t ∧
      (∀ v, s.readCell s.rdPtr = some v → t.out.remData = v) ∧
      t.rdPtr = (if s.rdPtr + 1 = s.capacity then 0 else s.rdPtr + 1) ∧ t.count.toNat + 1 = s.count.toNat ∧
      t.wrPtr = s.wrPtr ∧ t.inited = true ∧ (∀ a, t.readCell a = s.readCell a) ∧
      fullFlag t.capacity t.count = false ∧ (emptyFlag t.count = true ↔ s.count.toNat = 1)

/-- A legal REM returns and drops the oldest element (43_remove.md R82). -/
def Obligations.RemoveReturnsTheOldestElement : Prop :=
  ∀ (s : State), s.Good → 0 < s.count.toNat →
    ∃ t, exec .rem s = .next t ∧
      s.contents = some t.out.remData :: t.contents ∧ t.count.toNat = s.count.toNat - 1 ∧
      t.wrPtr = s.wrPtr ∧ t.rdPtr = (s.rdPtr + 1) % s.capacity ∧ t.mem = s.mem ∧
      t.count.toNat ≤ t.capacity ∧ t.wrPtr < t.capacity ∧ t.rdPtr < t.capacity ∧
      t.wrPtr = (t.rdPtr + t.count.toNat) % t.capacity

/-- INSREM d (44_concurrent.md R83): the old oldest element is returned, `d` is written at `wr_ptr`, both cursors
advance and wrap, the count and so both flags stay; nothing else changes. -/
def Obligations.InsertRemoveMovesBothCursors : Prop :=
  ∀ (s : State) (d : Byte), s.inited = true → 0 < s.count.toNat → s.count.toNat < s.capacity →
    s.wrPtr < s.capacity → s.rdPtr < s.capacity →
    ∃ t, exec (.insrem d) s = .next t ∧ s.CommandFrame t ∧ s.ShowsOutputs t ∧
      (∀ v, s.readCell s.rdPtr = some v → t.out.remData = v) ∧
      t.wrPtr = (if s.wrPtr + 1 = s.capacity then 0 else s.wrPtr + 1) ∧
      t.rdPtr = (if s.rdPtr + 1 = s.capacity then 0 else s.rdPtr + 1) ∧
      t.count = s.count ∧ t.inited = true ∧
      t.readCell s.wrPtr = some d ∧ (∀ a, a ≠ s.wrPtr → t.readCell a = s.readCell a)

/-- INSREM equals its two halves in either order (44_concurrent.md R86); at `count = N` only the order REM, INS is
legal, at `count = 0` only the order INS, REM, and the single-cycle INSREM is a violation at both. -/
def Obligations.InsertRemoveEqualsItsHalves : Prop :=
  ∀ (s : State) (d : Byte), s.Good →
    (0 < s.count.toNat → s.count.toNat < s.capacity →
      ∃ t a b c e, exec (.insrem d) s = .next t ∧
        exec (.ins d) s = .next a ∧ exec .rem a = .next b ∧
        exec .rem s = .next c ∧ exec (.ins d) c = .next e ∧
        t.arch = b.arch ∧ t.arch = e.arch ∧
        t.mark = none ∧ a.mark = none ∧ b.mark = none ∧ c.mark = none ∧ e.mark = none ∧
        s.contents.head? = some (some t.out.remData) ∧
        b.out.remData = t.out.remData ∧ c.out.remData = t.out.remData ∧
        t.contents = s.contents.tail ++ [some d]) ∧
    (s.count.toNat = s.capacity → ¬ s.Allows (.insrem d) ∧ ¬ s.Allows (.ins d) ∧ s.Allows .rem ∧
      ∃ c, exec .rem s = .next c ∧ c.Allows (.ins d)) ∧
    (s.count.toNat = 0 → ¬ s.Allows (.insrem d) ∧ ¬ s.Allows .rem ∧ s.Allows (.ins d) ∧
      ∃ a, exec (.ins d) s = .next a ∧ a.Allows .rem)

/-- With N = 1 an INSREM is never legal: under the default policy it faults in every reachable state without violation
(44_concurrent.md R83, corner case c). -/
def Obligations.InsertRemoveIsNeverLegalAtCapacityOne : Prop :=
  ∀ (s : State) (d : Byte), s.Inv → s.mark = none → s.policy = .fault → s.capacity = 1 →
    ∃ r, exec (.insrem d) s = .fault r

/-! ### Contract violations -/

/-- V1 UseBeforeInit (60_exceptions.md R89): INS, REM and INSREM in UNINIT raise it with the opcode; INIT, NOP and the
outputs do not. That `s.diagnostic` is noted beside it is the model's choice (DESIGN CHOICE, log entry 14), which R93
permits. -/
def Obligations.UseBeforeInitIsRaised : Prop :=
  ∀ s : State, s.inited = false →
    (s.policy = .fault →
      (∀ d, exec (.ins d) s = .fault (.violation (.useBeforeInit 0b001) s.diagnostic)) ∧
      exec .rem s = .fault (.violation (.useBeforeInit 0b010) s.diagnostic) ∧
      ∀ d, exec (.insrem d) s = .fault (.violation (.useBeforeInit 0b011) s.diagnostic)) ∧
    ∀ i : Instr, i.inserted = none → i.removes = false → ∃ t, exec i s = .next t ∧ t.mark = s.mark

/-- V2 Overflow (60_exceptions.md R90): INS and INSREM at `count = N` raise it with the opcode and the datum.
That `s.diagnostic` is noted beside it is the model's choice (DESIGN CHOICE, log entry 14), which R93 permits. -/
def Obligations.OverflowIsRaised : Prop :=
  ∀ (s : State) (d : Byte), s.inited = true → s.count.toNat = s.capacity → s.policy = .fault →
    exec (.ins d) s = .fault (.violation (.overflow 0b001 d) s.diagnostic) ∧
    exec (.insrem d) s = .fault (.violation (.overflow 0b011 d) s.diagnostic)

/-- V3 Underflow (60_exceptions.md R91): REM and INSREM at `count = 0` raise it with the opcode. That
`s.diagnostic` is noted beside it is the model's choice (DESIGN CHOICE, log entry 14), which R93 permits. -/
def Obligations.UnderflowIsRaised : Prop :=
  ∀ (s : State) (d : Byte), 0 < s.capacity → s.inited = true → s.count = 0 → s.policy = .fault →
    exec .rem s = .fault (.violation (.underflow 0b010) s.diagnostic) ∧
    exec (.insrem d) s = .fault (.violation (.underflow 0b011) s.diagnostic)

/-- Illegality is by state: from a reachable state without violation, a command faults exactly when the contract does
not allow it, and completes without a mark exactly when it does (30_encoding.md R61, 60_exceptions.md R88). -/
def Obligations.CommandsFaultExactlyOutsideTheContract : Prop :=
  ∀ (s : State) (i : Instr), s.Inv → s.mark = none → s.policy = .fault →
    ((∃ r, exec i s = .fault r) ↔ ¬ s.Allows i) ∧
    ((∃ t, exec i s = .next t ∧ t.mark = none) ↔ s.Allows i)

/-- The unguarded datapath on the violations, under the policy `mechanical`: the four rows of the table of
60_exceptions.md R98. -/
def Obligations.UnguardedDatapathAtTheBoundaries : Prop :=
  ∀ (s : State) (d : Byte), s.inited = true → s.policy = .mechanical → s.wrPtr = s.rdPtr → s.rdPtr < s.capacity →
    (s.count.toNat = s.capacity →
      (∃ t, exec (.ins d) s = .next t ∧ t.readCell s.wrPtr = some d ∧ t.wrPtr = inc s.capacity s.wrPtr ∧
        t.rdPtr = s.rdPtr ∧ t.count.toNat = (s.capacity + 1) % 256) ∧
      ∃ t, exec (.insrem d) s = .next t ∧ (∀ v, s.readCell s.rdPtr = some v → t.out.remData = v) ∧
        t.readCell s.wrPtr = some d ∧ t.wrPtr = inc s.capacity s.wrPtr ∧ t.rdPtr = inc s.capacity s.rdPtr ∧
        t.count = s.count) ∧
    (s.count = 0 →
      (∃ t, exec .rem s = .next t ∧ t.mem = s.mem ∧ t.rdPtr = inc s.capacity s.rdPtr ∧ t.wrPtr = s.wrPtr ∧
        t.count.toNat = 255) ∧
      ∃ t, exec (.insrem d) s = .next t ∧ t.readCell s.wrPtr = some d ∧ t.wrPtr = inc s.capacity s.wrPtr ∧
        t.rdPtr = inc s.capacity s.rdPtr ∧ t.count = 0)

/-- The unguarded datapath agrees with the guarded step on every legal command (60_exceptions.md R98). -/
def Obligations.PoliciesAgreeOnLegalCommands : Prop :=
  ∀ (s t : State) (i : Instr), s.Allows i → exec i { s with policy := .fault } = .next t →
    exec i { s with policy := .mechanical } = .next { t with policy := .mechanical }

/-- Under the policy `mechanical` the block responds to every command in every reachable state: in READY no double fault
and no lock-up (60_exceptions.md R100). That INS, REM and INSREM answer a next state in UNINIT too, where R98 leaves
`ustep` undefined, is the model's choice (DESIGN CHOICE, log entry 6). -/
def Obligations.MechanicalBlockAlwaysResponds : Prop :=
  ∀ (s : State) (i : Instr), s.Inv → s.policy = .mechanical → ∃ t, exec i s = .next t

/-- The fault mark is set by the first violation, with its kind, and no later command changes it, INIT included
(60_exceptions.md R97, R99, R100). Two clauses are the model's choice: the registers noted in the mark and in the fault
(DESIGN CHOICE, log entry 14, which R93 permits), and the next state of a violation in UNINIT (DESIGN CHOICE, log
entry 6). -/
def Obligations.FaultMarkIsSetOnceAndSticky : Prop :=
  (∀ (i : Instr) (s t : State) (m : FaultMark), s.mark = some m → exec i s = .next t → t.mark = some m) ∧
  ∀ (i : Instr) (s : State), s.Inv → s.mark = none → s.policy = .mechanical → ¬ s.Allows i →
    ∃ t m, exec i s = .next t ∧ t.mark = some m ∧ m.seen = s.diagnostic ∧
      exec i { s with policy := .fault } = .fault (.violation m.violation s.diagnostic)

/-- Under the policy `mechanical` a command before INIT leaves the block in UNINIT with the mark set and no cell known
(the model's choice, log entry 6), and INIT gives a defined state again (60_exceptions.md R99). -/
def Obligations.MisuseBeforeInitStaysUninitialised : Prop :=
  ∀ (s : State) (i : Instr), s.inited = false → s.policy = .mechanical →
    i.inserted.isSome = true ∨ i.removes = true →
    ∃ t u, exec i s = .next t ∧ t.inited = false ∧ t.mark ≠ none ∧ (∀ a, t.readCell a = none) ∧
      exec .init t = .next u ∧ u.inited = true ∧ u.count = 0 ∧ u.wrPtr = 0 ∧ u.rdPtr = 0 ∧ u.mark = t.mark

/-! ### Invariants -/

/-- Power-up: UNINIT, no cell written, no violation, cycle 0 (10_state.md R29, R33, 70_reset_and_hazards.md R105), N and
the policy at their defaults, and the invariant holds; the register values there are log entry 2's and not stated. -/
def Obligations.ResetMeetsTheInvariant : Prop :=
  State.reset.Inv ∧ State.reset.inited = false ∧ (∀ a, State.reset.readCell a = none) ∧ State.reset.mark = none ∧
  State.reset.cycle = 0 ∧ State.reset.capacity = 255 ∧ State.reset.policy = .fault

/-- Every step keeps the invariant: the capacity in scope, storage canonical, cursors valid, and on a run without
violation the count range, the cursor distance and every element held written (10_state.md R22 to R24). -/
def Obligations.EveryStepKeepsTheInvariant : Prop :=
  ∀ s t : State, s.Inv → step s = .next t → t.Inv

/-! ### Runs -/

/-- FIFO order (10_state.md R25, 43_remove.md R82): over a good run without INIT, what the removes returned followed by
what is held at the end is what was held at the start followed by what was inserted. -/
def Obligations.ElementsLeaveInTheOrderTheyEntered : Prop :=
  ∀ (s t : State) (k : Nat) (vs : List Byte), s.Good → goodRun k s = some (t, vs) → Instr.init ∉ s.commands k →
    vs.map some ++ t.contents = s.contents ++ (insertedBy (s.commands k)).map some

/-- A run is good exactly when every command of it keeps the contract, judged from the commands alone
(70_reset_and_hazards.md R116, 60_exceptions.md R88, 90_conflicts.md C10). -/
def Obligations.RunIsGoodExactlyWhenTheContractIsKept : Prop :=
  ∀ (s : State) (k : Nat), s.Inv → s.mark = none → k ≤ s.trace.length →
    ((goodRun k s).isSome = true ↔ keepsContract s.capacity s.level (s.commands k) = true)

/-- Count accounting (41_queries.md R71 b): over a good run without INIT the count is what it was plus the inserts
minus the removes. -/
def Obligations.CountIsInsertsMinusRemoves : Prop :=
  ∀ (s t : State) (k : Nat) (vs : List Byte), s.Good → goodRun k s = some (t, vs) → Instr.init ∉ s.commands k →
    t.count.toNat + vs.length = s.count.toNat + (insertedBy (s.commands k)).length

/-- The snapshot bounds (70_reset_and_hazards.md R108): after a sample of `count`, a consumer that has removed fewer
than that many since may remove again, and a producer that has inserted fewer than N minus that many may insert again,
whatever the other client did; no INIT among the cycles. -/
def Obligations.SnapshotBoundsAreSafe : Prop :=
  ∀ (s t : State) (k : Nat) (vs : List Byte) (d : Byte), s.Good → goodRun k s = some (t, vs) →
    Instr.init ∉ s.commands k →
    (vs.length < s.count.toNat → ∃ u, exec .rem t = .next u ∧ u.mark = none) ∧
    ((insertedBy (s.commands k)).length < s.capacity - s.count.toNat → ∃ u, exec (.ins d) t = .next u ∧ u.mark = none)

/-- Fill and drain (95_test_vectors.md S0 T2, T4, T5; 43_remove.md R82): from any reachable empty buffer, wherever its
cursors stand, n ≤ N inserts followed by n removes run without violation, hold all n in between, return them in order
and leave an empty buffer from which the same can be done again. -/
def Obligations.FillThenDrainReturnsTheElements : Prop :=
  ∀ (s : State) (ds : List Byte) (rest : List CommandWord), s.Good → s.count = 0 → ds.length ≤ s.capacity →
    s.trace = (ds.map fun d => 0x100 + d.setWidth 11) ++ List.replicate ds.length 0x200 ++ rest →
    ∃ m t, goodRun ds.length s = some (m, []) ∧ m.count.toNat = ds.length ∧
      goodRun (ds.length + ds.length) s = some (t, ds) ∧ t.Good ∧ t.count = 0 ∧ t.trace = rest

/-- Hidden state is invisible (10_state.md R32, 70_reset_and_hazards.md R113): two reachable states without violation
that a client cannot tell apart, whatever their power-up registers, cursor positions and stale cells, answer the same
command with states it cannot tell apart, and violate the contract together. The two runs take the same draws (log
entry 7). -/
def Obligations.HiddenStateIsInvisible : Prop :=
  ∀ s t : State, s.Inv → t.Inv → s.mark = none → t.mark = none → s.Alike t →
    (∀ s', step s = .next s' → s'.mark = none → ∃ t', step t = .next t' ∧ t'.mark = none ∧ s'.Alike t') ∧
    ∀ v x, step s = .fault (.violation v x) → ∃ y, step t = .fault (.violation v y)

/-! ### Trace notation -/

/-- The pseudo-commands expand to the lines and cycles of the table of 30_encoding.md R64: the repeated ones to their
lines, the queries to no line but an expectation, which the next line takes, before its own, or a final NOP if no line
follows; every other item expands to its own lines in its place. -/
def Obligations.PseudoCommandsExpandAsTabulated : Prop :=
  (∀ k, lineWords (itemLines (.nops k)) = List.replicate k 0x000) ∧
  (∀ k, lineWords (itemLines (.drain k)) = List.replicate k 0x200) ∧
  (∀ k vs, lineWords (itemLines (.drainExpect k vs)) = List.replicate vs.length 0x200 ∧
    (itemLines (.drainExpect k vs)).map (·.expects) = vs.map fun v => [.remData v]) ∧
  (∀ a b, a ≤ b → b ≤ 255 → (itemLines (.fill a b)).length = b - a + 1 ∧
    ∀ j, j < b - a + 1 → (lineWords (itemLines (.fill a b)))[j]? = some (BitVec.ofNat 11 (0x100 + a + j))) ∧
  (∀ c b,
    (itemLines (.getCount c) = [] ∧ itemQuery (.getCount c) = [.count c]) ∧
    (itemLines (.isEmpty b) = [] ∧ itemQuery (.isEmpty b) = [.empty b]) ∧
    (itemLines (.isFull b) = [] ∧ itemQuery (.isFull b) = [.full b])) ∧
  (∀ q l rest, itemLines q = [] → expandItems (q :: .line l :: rest) [] =
    { command := l.command, expects := itemQuery q ++ l.expects } :: expandItems rest []) ∧
  (∀ q, itemQuery q ≠ [] → expandItems [q] [] = [{ command := .nop, expects := itemQuery q }]) ∧
  (∀ qs it rest l ls, (∀ q ∈ qs, itemLines q = []) → itemLines it = l :: ls →
    expandItems (qs ++ it :: rest) [] =
      { command := l.command, expects := qs.flatMap itemQuery ++ l.expects } :: ls ++ expandItems rest []) ∧
  ∀ qs, (∀ q ∈ qs, itemLines q = []) → qs.flatMap itemQuery ≠ [] →
    expandItems qs [] = [{ command := .nop, expects := qs.flatMap itemQuery }]

/-- The expectations of a line are on the outputs of its cycle, those of the state before the edge, whether its command
completes or violates the contract (30_encoding.md R63, 41_queries.md R70). That the lines after a faulted one are not
played and do not count as unmet, whatever they are, is the model's choice (DESIGN CHOICE, log entry 16). -/
def Obligations.ExpectationsAreOnTheOutputsBeforeTheEdge : Prop :=
  ∀ (s : State) (l : TraceLine) (ls : List TraceLine),
    (s.inited = true → s.ShowsOutputs { s with out := s.cyclePorts }) ∧
    (∀ t, step s = .next t → t.out = s.cyclePorts ∧
      playLines (l :: ls) s = ((playLines ls t).1, l.expects.all (meets t.out) && (playLines ls t).2)) ∧
    ∀ r, step s = .fault r → playLines (l :: ls) s = (.fault r, l.expects.all (meets s.cyclePorts))

/-- The calls of one context become their lines and expectations in call order, and idle NOP cycles put anywhere change
no word but by NOPs (30_encoding.md R65). -/
def Obligations.CallsOfOneContextBecomeTheirLines : Prop :=
  (∀ cs : List SourceCall, eventsItems (cs.map .call) = [cs.map callItem]) ∧
  (∀ d, itemLines (callItem (.insert d)) = [{ command := .ins d, expects := [] }]) ∧
  itemLines (callItem .init) = [{ command := .init, expects := [] }] ∧
  itemLines (callItem (.remove none)) = [{ command := .rem, expects := [] }] ∧
  (∀ v : Byte, itemLines (callItem (.remove (some v))) = [{ command := .rem, expects := [.remData v.toNat] }]) ∧
  (∀ c b, itemLines (callItem (.getCount c)) = [] ∧ itemQuery (callItem (.getCount c)) = [.count c] ∧
    itemLines (callItem (.isEmpty b)) = [] ∧ itemQuery (callItem (.isEmpty b)) = [.empty b]) ∧
  ∀ (idle : List Nat) (items : List TraceItem),
    ((expandItems (withIdle idle items) []).map (·.command)).filter (· ≠ .nop) =
      ((expandItems items []).map (·.command)).filter (· ≠ .nop)

/-- An insert and a remove of two contexts at once (30_encoding.md R65): between empty and full, each of the three ways
to write them runs without violation, returns the oldest element and ends in the same state (44_concurrent.md R86). -/
def Obligations.ConcurrentPairRunsAlikeHoweverWritten : Prop :=
  ∀ (s : State) (d v : Byte), s.Good → 0 < s.count.toNat → s.count.toNat < s.capacity →
    s.contents.head? = some (some v) →
    (eventItems (.concurrent d (some v))).map (fun items => (expandItems items []).map (·.command)) =
      [[.insrem d], [.ins d, .rem], [.rem, .ins d]] ∧
    ∃ e : Arch, ∀ items ∈ eventItems (.concurrent d (some v)), ∃ t,
      playLines (expandItems items []) { s with trace := lineWords (expandItems items []) } = (.next t, true) ∧
      t.mark = none ∧ t.arch = e ∧ t.contents = s.contents.tail ++ [some d]
end

