-- ==== Sys2Proof/Laws/Memory.lean ====
section
/-! SUPPORT. The laws of storage: read after write, and that a write keeps the canonical form. -/

namespace Sys2Proof.Machine

/-- A read after a write: the value written there, the old value elsewhere (20_memory.md R41, R48). -/
@[simp] theorem Memory.read_write (m : Memory) (i : Nat) (v : Byte) (j : Nat) :
    (m.write i v).read j = if j = i then some v else m.read j := by
  induction m with
  | nil => simp [Memory.write, Memory.read, eq_comm]
  | cons c m ih =>
    obtain ⟨a, u⟩ := c
    by_cases hlt : i < a
    · simp [Memory.write, Memory.read, hlt, eq_comm]
    · by_cases heq : i = a
      · subst heq
        simp only [Memory.write, Memory.read, lt_irrefl, if_false, if_true]
        by_cases hj : i = j
        · simp [hj]
        · simp [hj, Ne.symm hj]
      · simp only [Memory.write, Memory.read, hlt, heq, if_false, ih]
        by_cases hj : a = j
        · subst hj; simp [Ne.symm heq]
        · simp [hj]

/-- The canonical form read from a later start. -/
theorem Memory.risesFrom_mono {n lo lo' : Nat} {m : Memory} (h : m.risesFrom n lo = true) (hl : lo' ≤ lo) :
    m.risesFrom n lo' = true := by
  cases m with
  | nil => rfl
  | cons c m =>
    obtain ⟨a, u⟩ := c
    simp only [Memory.risesFrom, Bool.and_eq_true, decide_eq_true_eq] at h ⊢
    exact ⟨⟨by omega, h.1.2⟩, h.2⟩

/-- A write keeps the addresses rising and below n. -/
theorem Memory.risesFrom_write {n lo i : Nat} {v : Byte} {m : Memory} (h : m.risesFrom n lo = true) (hl : lo ≤ i)
    (hi : i < n) : (m.write i v).risesFrom n lo = true := by
  induction m generalizing lo with
  | nil => simp [Memory.write, Memory.risesFrom, hl, hi]
  | cons c m ih =>
    obtain ⟨a, u⟩ := c
    simp only [Memory.risesFrom, Bool.and_eq_true, decide_eq_true_eq] at h
    obtain ⟨⟨h1, h2⟩, h3⟩ := h
    by_cases hlt : i < a
    · simp only [Memory.write, hlt, if_true, Memory.risesFrom, Bool.and_eq_true, decide_eq_true_eq]
      exact ⟨⟨hl, hi⟩, ⟨by omega, h2⟩, h3⟩
    · by_cases heq : i = a
      · subst heq
        simp only [Memory.write, lt_irrefl, if_false, if_true, Memory.risesFrom, Bool.and_eq_true, decide_eq_true_eq]
        exact ⟨⟨hl, hi⟩, h3⟩
      · simp only [Memory.write, hlt, heq, if_false, Memory.risesFrom, Bool.and_eq_true, decide_eq_true_eq]
        exact ⟨⟨h1, h2⟩, ih h3 (by omega)⟩

/-- A write to an existing cell keeps the canonical form (20_memory.md R36, R41). -/
theorem Memory.wf_write {n i : Nat} {v : Byte} {m : Memory} (h : m.wf n = true) (hi : i < n) :
    (m.write i v).wf n = true :=
  Memory.risesFrom_write h (Nat.zero_le i) hi

/-- No cell below the start of the form is listed. -/
theorem Memory.read_below {n lo j : Nat} {m : Memory} (h : m.risesFrom n lo = true) (hj : j < lo) : m.read j = none := by
  induction m generalizing lo with
  | nil => rfl
  | cons c m ih =>
    obtain ⟨a, u⟩ := c
    simp only [Memory.risesFrom, Bool.and_eq_true, decide_eq_true_eq] at h
    obtain ⟨⟨h1, _⟩, h3⟩ := h
    simp only [Memory.read]
    rw [if_neg (by omega)]
    exact ih h3 (by omega)

/-- Two storages in canonical form that read alike are equal data. -/
theorem Memory.ext_of_risesFrom {n lo lo' : Nat} {m m' : Memory} (h : m.risesFrom n lo = true)
    (h' : m'.risesFrom n lo' = true) (hr : ∀ j, m.read j = m'.read j) : m = m' := by
  induction m generalizing lo lo' m' with
  | nil =>
    cases m' with
    | nil => rfl
    | cons c m' => obtain ⟨a, u⟩ := c; simpa [Memory.read] using hr a
  | cons c m ih =>
    obtain ⟨a, u⟩ := c
    simp only [Memory.risesFrom, Bool.and_eq_true, decide_eq_true_eq] at h
    cases m' with
    | nil => simpa [Memory.read] using hr a
    | cons c' m' =>
      obtain ⟨a', u'⟩ := c'
      simp only [Memory.risesFrom, Bool.and_eq_true, decide_eq_true_eq] at h'
      have ha : a = a' := by
        rcases lt_trichotomy a a' with hlt | heq | hgt
        · have := hr a
          simp [Memory.read, Nat.ne_of_gt hlt, Memory.read_below h'.2 (by omega : a < a' + 1)] at this
        · exact heq
        · have := hr a'
          simp [Memory.read, Nat.ne_of_gt hgt, Memory.read_below h.2 (by omega : a' < a + 1)] at this
      subst ha
      have hu : u = u' := by simpa [Memory.read] using hr a
      subst hu
      congr 1
      apply ih h.2 h'.2
      intro j
      by_cases hj : a = j
      · subst hj
        rw [Memory.read_below h.2 (by omega), Memory.read_below h'.2 (by omega)]
      · simpa [Memory.read, hj] using hr j

/-- Equal readings, equal storages (the form is canonical). -/
theorem Memory.ext_of_wf {n : Nat} {m m' : Memory} (h : m.wf n = true) (h' : m'.wf n = true)
    (hr : ∀ j, m.read j = m'.read j) : m = m' :=
  Memory.ext_of_risesFrom h h' hr

/-- Storage at power-up has the canonical form. -/
theorem reset_mem_wf : State.reset.mem.wf State.reset.capacity = true := rfl

end Sys2Proof.Machine
end

