-- ==== Sys2Proof/Laws/State.lean ====
section
/-! SUPPORT. One lemma per field per named update of the state, so that no later proof unfolds a record update. -/

namespace Sys2Proof.Machine

/-! ### tick -/

@[simp] theorem State.tick_capacity (s : State) : s.tick.capacity = s.capacity := rfl

@[simp] theorem State.tick_policy (s : State) : s.tick.policy = s.policy := rfl

@[simp] theorem State.tick_wrPtr (s : State) : s.tick.wrPtr = s.wrPtr := rfl

@[simp] theorem State.tick_rdPtr (s : State) : s.tick.rdPtr = s.rdPtr := rfl

@[simp] theorem State.tick_count (s : State) : s.tick.count = s.count := rfl

@[simp] theorem State.tick_mem (s : State) : s.tick.mem = s.mem := rfl

@[simp] theorem State.tick_inited (s : State) : s.tick.inited = s.inited := rfl

@[simp] theorem State.tick_mark (s : State) : s.tick.mark = s.mark := rfl

@[simp] theorem State.tick_trace (s : State) : s.tick.trace = s.trace := rfl

@[simp] theorem State.tick_out (s : State) : s.tick.out = s.cyclePorts := rfl

@[simp] theorem State.tick_draws (s : State) : s.tick.draws = s.draws + 1 := rfl

@[simp] theorem State.tick_cycle (s : State) : s.tick.cycle = s.cycle + 1 := rfl

/-! ### writeCell -/

@[simp] theorem State.writeCell_capacity (s : State) (i : Nat) (v : Byte) : (s.writeCell i v).capacity = s.capacity := rfl

@[simp] theorem State.writeCell_policy (s : State) (i : Nat) (v : Byte) : (s.writeCell i v).policy = s.policy := rfl

@[simp] theorem State.writeCell_wrPtr (s : State) (i : Nat) (v : Byte) : (s.writeCell i v).wrPtr = s.wrPtr := rfl

@[simp] theorem State.writeCell_rdPtr (s : State) (i : Nat) (v : Byte) : (s.writeCell i v).rdPtr = s.rdPtr := rfl

@[simp] theorem State.writeCell_count (s : State) (i : Nat) (v : Byte) : (s.writeCell i v).count = s.count := rfl

@[simp] theorem State.writeCell_mem (s : State) (i : Nat) (v : Byte) : (s.writeCell i v).mem = s.mem.write i v := rfl

@[simp] theorem State.writeCell_inited (s : State) (i : Nat) (v : Byte) : (s.writeCell i v).inited = s.inited := rfl

@[simp] theorem State.writeCell_mark (s : State) (i : Nat) (v : Byte) : (s.writeCell i v).mark = s.mark := rfl

@[simp] theorem State.writeCell_out (s : State) (i : Nat) (v : Byte) : (s.writeCell i v).out = s.out := rfl

@[simp] theorem State.writeCell_trace (s : State) (i : Nat) (v : Byte) : (s.writeCell i v).trace = s.trace := rfl

@[simp] theorem State.writeCell_draws (s : State) (i : Nat) (v : Byte) : (s.writeCell i v).draws = s.draws := rfl

@[simp] theorem State.writeCell_cycle (s : State) (i : Nat) (v : Byte) : (s.writeCell i v).cycle = s.cycle := rfl

/-! ### setMark -/

@[simp] theorem State.setMark_capacity (s : State) (v : Violation) : (s.setMark v).capacity = s.capacity := rfl

@[simp] theorem State.setMark_policy (s : State) (v : Violation) : (s.setMark v).policy = s.policy := rfl

@[simp] theorem State.setMark_wrPtr (s : State) (v : Violation) : (s.setMark v).wrPtr = s.wrPtr := rfl

@[simp] theorem State.setMark_rdPtr (s : State) (v : Violation) : (s.setMark v).rdPtr = s.rdPtr := rfl

@[simp] theorem State.setMark_count (s : State) (v : Violation) : (s.setMark v).count = s.count := rfl

@[simp] theorem State.setMark_mem (s : State) (v : Violation) : (s.setMark v).mem = s.mem := rfl

@[simp] theorem State.setMark_inited (s : State) (v : Violation) : (s.setMark v).inited = s.inited := rfl

@[simp] theorem State.setMark_out (s : State) (v : Violation) : (s.setMark v).out = s.out := rfl

@[simp] theorem State.setMark_trace (s : State) (v : Violation) : (s.setMark v).trace = s.trace := rfl

@[simp] theorem State.setMark_draws (s : State) (v : Violation) : (s.setMark v).draws = s.draws := rfl

@[simp] theorem State.setMark_cycle (s : State) (v : Violation) : (s.setMark v).cycle = s.cycle := rfl

/-- A mark that stands is kept (60_exceptions.md R100). -/
@[simp] theorem State.setMark_mark_of_some (s : State) (v : Violation) (m : FaultMark) (h : s.mark = some m) :
    (s.setMark v).mark = some m := by simp [State.setMark, h]

/-- The first violation sets the mark (60_exceptions.md R97). -/
@[simp] theorem State.setMark_mark_of_none (s : State) (v : Violation) (h : s.mark = none) :
    (s.setMark v).mark = some { violation := v, seen := s.diagnostic } := by simp [State.setMark, h]

/-- After `raise` a mark stands. -/
@[simp] theorem State.setMark_mark_ne_none (s : State) (v : Violation) : (s.setMark v).mark ≠ none := by
  cases h : s.mark <;> simp [State.setMark, h]

/-! ### scramble -/

@[simp] theorem State.scramble_capacity (s : State) : (s.scramble).capacity = s.capacity := rfl

@[simp] theorem State.scramble_policy (s : State) : (s.scramble).policy = s.policy := rfl

@[simp] theorem State.scramble_inited (s : State) : (s.scramble).inited = s.inited := rfl

@[simp] theorem State.scramble_mark (s : State) : (s.scramble).mark = s.mark := rfl

@[simp] theorem State.scramble_out (s : State) : (s.scramble).out = s.out := rfl

@[simp] theorem State.scramble_trace (s : State) : (s.scramble).trace = s.trace := rfl

@[simp] theorem State.scramble_cycle (s : State) : (s.scramble).cycle = s.cycle := rfl

@[simp] theorem State.scramble_mem (s : State) : s.scramble.mem = [] := rfl

/-! ### readings of a state that an update leaves alone -/

@[simp] theorem State.tick_readCell (s : State) (i : Nat) : s.tick.readCell i = s.readCell i := rfl

@[simp] theorem State.tick_contents (s : State) : s.tick.contents = s.contents := rfl

@[simp] theorem State.tick_arch (s : State) : s.tick.arch = s.arch := rfl

@[simp] theorem State.setMark_readCell (s : State) (v : Violation) (i : Nat) :
    (s.setMark v).readCell i = s.readCell i := rfl

@[simp] theorem State.setMark_headDatum (s : State) (v : Violation) : (s.setMark v).headDatum = s.headDatum := rfl

@[simp] theorem State.setMark_cyclePorts (s : State) (v : Violation) : (s.setMark v).cyclePorts = s.cyclePorts := rfl

/-! ### the ports of a cycle: what was seen, the words to come and the policy do not show -/

@[simp] theorem State.cyclePorts_out (s : State) (p : Ports) : ({ s with out := p } : State).cyclePorts = s.cyclePorts := rfl

@[simp] theorem State.cyclePorts_trace (s : State) (tr : List CommandWord) :
    ({ s with trace := tr } : State).cyclePorts = s.cyclePorts := rfl

@[simp] theorem State.cyclePorts_count (s : State) : s.cyclePorts.count = s.portCount := rfl

@[simp] theorem State.cyclePorts_empty (s : State) : s.cyclePorts.empty = s.portEmpty := rfl

@[simp] theorem State.cyclePorts_full (s : State) : s.cyclePorts.full = s.portFull := rfl

@[simp] theorem State.cyclePorts_remData (s : State) : s.cyclePorts.remData = s.portRemData := rfl

end Sys2Proof.Machine
end

