-- ==== Sys2Proof/Laws/Ops.lean ====
section
/-! SUPPORT. What each shared operation can do, said once: the ports of a cycle, the contract test, `raise`. -/

namespace Sys2Proof.Machine

/-! ### Parameters, cursors and flags -/

@[simp] theorem capacityWf_iff (n : Nat) : capacityWf n = true ↔ 1 ≤ n ∧ n ≤ 255 := by
  rw [capacityWf, Bool.and_eq_true, decide_eq_true_eq, decide_eq_true_eq]; rfl

theorem inc_lt {n c : Nat} (h : 0 < n) (hc : c < n) : inc n c < n := by unfold inc; split <;> omega

theorem inc_eq_mod {n c : Nat} (hc : c < n) : inc n c = (c + 1) % n := by
  unfold inc
  split
  · next h => simp [h]
  · exact (Nat.mod_eq_of_lt (by omega)).symm

@[simp] theorem emptyFlag_iff (c : CountWord) : emptyFlag c = true ↔ c.toNat = 0 := by
  simp [emptyFlag, ← BitVec.toNat_inj]

@[simp] theorem fullFlag_iff (n : Nat) (c : CountWord) : fullFlag n c = true ↔ c.toNat = n := by simp [fullFlag]

theorem emptyFlag_of_pos {c : CountWord} (h : 0 < c.toNat) : emptyFlag c = false := by
  rw [← Bool.not_eq_true, emptyFlag_iff]; omega

theorem fullFlag_of_ne {n : Nat} {c : CountWord} (h : c.toNat ≠ n) : fullFlag n c = false := by
  rw [← Bool.not_eq_true, fullFlag_iff]; exact h

theorem countUp_toNat {c : CountWord} (h : c.toNat < 255) : (countUp c).toNat = c.toNat + 1 := by
  simp [countUp, BitVec.toNat_add]; omega

theorem countDown_toNat {c : CountWord} (h : 0 < c.toNat) : (countDown c).toNat = c.toNat - 1 := by
  have := c.isLt
  simp [countDown, BitVec.toNat_sub]; omega

/-! ### The ports of a cycle -/

/-- In READY the ports are the register, the two flags and the datum at `rd_ptr` (41_queries.md R70). -/
theorem State.cyclePorts_of_ready {s : State} (h : s.inited = true) :
    s.cyclePorts = { count := s.count, empty := emptyFlag s.count, full := fullFlag s.capacity s.count,
                     remData := s.portRemData } := by
  simp [State.cyclePorts, State.portCount, State.portEmpty, State.portFull, h]

/-- In UNINIT they are the cycle's draws (41_queries.md R72). -/
theorem State.cyclePorts_of_uninit {s : State} (h : s.inited = false) :
    s.cyclePorts = { count := Config.freeCount s.draws, empty := Config.freeEmpty s.draws,
                     full := Config.freeFull s.draws, remData := Config.freeDatum s.draws } := by
  simp [State.cyclePorts, State.portCount, State.portEmpty, State.portFull, State.portRemData, State.headDatum, h]

theorem State.portRemData_of_some {s : State} {v : Byte} (h : s.headDatum = some v) : s.portRemData = v := by
  simp [State.portRemData, h]

theorem State.portRemData_of_none {s : State} (h : s.headDatum = none) :
    s.portRemData = Config.freeDatum s.draws := by simp [State.portRemData, h]

/-- The ports do not show the mark. -/
theorem State.tick_setMark (s : State) (v : Violation) :
    (s.setMark v).tick = { s.tick with mark := (s.setMark v).mark } := rfl

/-! ### The contract -/

/-- When a command violates nothing (60_exceptions.md R88). -/
theorem State.violation_eq_none_iff (s : State) (op : Opcode) (datum : Option Byte) (removes : Bool) :
    s.violation op datum removes = none ↔
      s.inited = true ∧ (datum.isSome = true → s.count.toNat ≠ s.capacity) ∧ (removes = true → s.count.toNat ≠ 0) := by
  have he := emptyFlag_iff s.count
  have hf := fullFlag_iff s.capacity s.count
  unfold State.violation
  cases hi : s.inited <;> cases datum <;> cases removes <;> cases h1 : fullFlag s.capacity s.count <;>
    cases h2 : emptyFlag s.count <;> simp [h1, h2] at he hf ⊢ <;> omega

/-- The contract kept: the command is its datapath. -/
theorem State.underContract_of_none {s : State} {op : Opcode} {datum : Option Byte} {removes : Bool}
    {datapath : State → Host.Outcome State Fault Refusal} (h : s.violation op datum removes = none) :
    s.underContract op datum removes datapath = datapath s := by simp [State.underContract, h]

/-- The contract broken under the policy `fault`: the run stops (60_exceptions.md R97). -/
theorem State.underContract_fault {s : State} {op : Opcode} {datum : Option Byte} {removes : Bool}
    {datapath : State → Host.Outcome State Fault Refusal} {v : Violation} (h : s.violation op datum removes = some v)
    (hp : s.policy = .fault) : s.underContract op datum removes datapath = .fault (.violation v s.diagnostic) := by
  simp [State.underContract, State.raise, h, hp]

/-- The contract broken under the policy `mechanical`: the mark is set and the block carries on
(60_exceptions.md R97, R98). -/
theorem State.underContract_mechanical {s : State} {op : Opcode} {datum : Option Byte} {removes : Bool}
    {datapath : State → Host.Outcome State Fault Refusal} {v : Violation} (h : s.violation op datum removes = some v)
    (hp : s.policy = .mechanical) : s.underContract op datum removes datapath =
      (if s.inited then datapath (s.setMark v) else .next (s.setMark v).tick.scramble) := by
  simp only [State.underContract, State.raise, h, hp]
  split <;> rfl

end Sys2Proof.Machine
end

