-- ==== Sys2Proof/Laws/Exec.lean ====
section
/-! SUPPORT. What an instruction can do, said once: the state it leads to, when it answers it, and what follows if it
did. -/

namespace Sys2Proof.Machine

/-- The state an instruction leads to from a READY state, its precondition not asked (60_exceptions.md R98). -/
def State.after (i : Instr) (s : State) : State :=
  match i with
  | .nop => s.tick
  | .ins d => { s.tick.writeCell s.wrPtr d with wrPtr := inc s.capacity s.wrPtr, count := countUp s.count }
  | .rem => { s.tick with rdPtr := inc s.capacity s.rdPtr, count := countDown s.count }
  | .insrem d => { s.tick.writeCell s.wrPtr d with
      wrPtr := inc s.capacity s.wrPtr, rdPtr := inc s.capacity s.rdPtr }
  | .init => { s.tick with wrPtr := 0, rdPtr := 0, count := 0, inited := true }
  | .count => { s with out := { s.out with count := s.portCount } }
  | .empty => { s with out := { s.out with empty := s.portEmpty } }
  | .full => { s with out := { s.out with full := s.portFull } }
  | .head => { s with out := { s.out with remData := s.portRemData } }

/-- The opcode field of the two commands that insert and the one that only removes (30_encoding.md R57). -/
def opcodeOf (i : Instr) : Opcode :=
  match i with
  | .ins _ => 0b001
  | .rem => 0b010
  | .insrem _ => 0b011
  | _ => 0

/-- The cells an instruction's datapath uses exist. -/
def State.CellsExist (s : State) (i : Instr) : Prop :=
  (i.inserted.isSome = true → s.wrPtr < s.capacity) ∧ (i.removes = true → s.rdPtr < s.capacity)

/-- The datapath of a command that inserts or removes (60_exceptions.md R98). -/
def ustep (i : Instr) (s : State) : Host.Outcome State Fault Refusal :=
  match i with
  | .ins d => ustepIns d s
  | .rem => ustepRem s
  | .insrem d => ustepInsRem d s
  | _ => .next (s.after i)

theorem exec_of_contracted {i : Instr} {s : State} (h : i.contracted) :
    exec i s = s.underContract (opcodeOf i) i.inserted i.removes (ustep i) := by
  cases i <;> first | rfl | simp [Instr.contracted, Instr.inserted, Instr.removes] at h

theorem exec_of_not_contracted {i : Instr} {s : State} (h : ¬ i.contracted) : exec i s = .next (s.after i) := by
  cases i <;> first | rfl | exact absurd (by simp [Instr.contracted, Instr.inserted, Instr.removes]) h

/-- A datapath completes with its effect if its cells exist, and only then. -/
theorem ustep_of_cells {i : Instr} {s : State} (hc : s.CellsExist i) : ustep i s = .next (s.after i) := by
  cases i <;> first | rfl | skip
  · simp [ustep, ustepIns, State.atCell, hc.1 rfl, State.after]
  · simp [ustep, ustepRem, State.atCell, hc.2 rfl, State.after]
  · simp [ustep, ustepInsRem, State.atCell, hc.1 rfl, hc.2 rfl, State.after]

theorem ustep_next {i : Instr} {s t : State} (h : ustep i s = .next t) : s.CellsExist i ∧ t = s.after i := by
  have hcells : s.CellsExist i := by
    cases i <;> simp only [ustep, ustepIns, ustepRem, ustepInsRem, State.atCell] at h <;>
      (repeat' split at h) <;> simp_all [State.CellsExist, Instr.inserted, Instr.removes]
  refine ⟨hcells, ?_⟩
  rw [ustep_of_cells hcells] at h
  exact (Host.Outcome.next.inj h).symm

/-- The mark does not matter to which cells exist. -/
@[simp] theorem State.setMark_cellsExist (s : State) (v : Violation) (i : Instr) :
    (s.setMark v).CellsExist i ↔ s.CellsExist i := by simp [State.CellsExist]

/-- An instruction that violates nothing, its cells existing, completes with its effect. -/
theorem exec_of_no_violation {i : Instr} {s : State}
    (h : i.contracted → s.violation (opcodeOf i) i.inserted i.removes = none) (hc : s.CellsExist i) :
    exec i s = .next (s.after i) := by
  by_cases hi : i.contracted
  · rw [exec_of_contracted hi, State.underContract_of_none (h hi), ustep_of_cells hc]
  · exact exec_of_not_contracted hi

/-- A command the contract allows violates nothing. -/
theorem State.Allows.no_violation {s : State} {i : Instr} (h : s.Allows i) (hi : i.contracted) :
    s.violation (opcodeOf i) i.inserted i.removes = none := by
  rw [State.violation_eq_none_iff]
  refine ⟨hi.elim (fun h' => (h.1 h').1) (fun h' => (h.2 h').1), fun h' => ?_, fun h' => ?_⟩
  · exact Nat.ne_of_lt (h.1 h').2
  · exact Nat.ne_of_gt (h.2 h').2

/-- A command the contract allows, its cells existing, completes with its effect. -/
theorem exec_of_allows {i : Instr} {s : State} (h : s.Allows i) (hc : s.CellsExist i) :
    exec i s = .next (s.after i) :=
  exec_of_no_violation h.no_violation hc

/-- What an instruction can do in READY: if it answers a next state, its cells exist, and either it violated nothing and
its effect happened, or a violation was recorded by policy and its effect happened on the marked state. -/
theorem exec_next_of_ready {i : Instr} {s t : State} (hr : s.inited = true) (h : exec i s = .next t) :
    s.CellsExist i ∧
      ((i.contracted → s.violation (opcodeOf i) i.inserted i.removes = none) ∧ t = s.after i ∨
      i.contracted ∧ ∃ v, s.violation (opcodeOf i) i.inserted i.removes = some v ∧ s.policy = .mechanical ∧
        t = (s.setMark v).after i) := by
  by_cases hi : i.contracted
  · rw [exec_of_contracted hi] at h
    cases hv : s.violation (opcodeOf i) i.inserted i.removes with
    | none =>
      rw [State.underContract_of_none hv] at h
      exact ⟨(ustep_next h).1, .inl ⟨fun _ => rfl, (ustep_next h).2⟩⟩
    | some v =>
      cases hp : s.policy with
      | fault => rw [State.underContract_fault hv hp] at h; cases h
      | mechanical =>
        rw [State.underContract_mechanical hv hp, if_pos hr] at h
        exact ⟨by simpa using (ustep_next h).1, .inr ⟨hi, v, rfl, rfl, (ustep_next h).2⟩⟩
  · rw [exec_of_not_contracted hi] at h
    refine ⟨?_, .inl ⟨fun h' => absurd h' hi, (Host.Outcome.next.inj h).symm⟩⟩
    simp only [Instr.contracted, not_or] at hi
    exact ⟨fun h' => absurd h' hi.1, fun h' => absurd h' hi.2⟩

/-- Every command under the contract is a violation in UNINIT (60_exceptions.md R89). -/
theorem State.violation_of_uninit {s : State} (hr : s.inited = false) (op : Opcode) (datum : Option Byte)
    (removes : Bool) : s.violation op datum removes = some (.useBeforeInit op) := by simp [State.violation, hr]

/-- What an instruction can do in UNINIT: one that stands under no contract has its effect; one that does leaves, by
policy, the marked unspecified state. -/
theorem exec_next_of_uninit {i : Instr} {s t : State} (hr : s.inited = false) (h : exec i s = .next t) :
    (¬ i.contracted ∧ t = s.after i) ∨
    (i.contracted ∧ s.policy = .mechanical ∧
      t = (s.setMark (.useBeforeInit (opcodeOf i))).tick.scramble) := by
  by_cases hi : i.contracted
  · refine .inr ⟨hi, ?_⟩
    rw [exec_of_contracted hi] at h
    have hv := State.violation_of_uninit hr (opcodeOf i) i.inserted i.removes
    cases hp : s.policy with
    | fault => rw [State.underContract_fault hv hp] at h; cases h
    | mechanical =>
      rw [State.underContract_mechanical hv hp, if_neg (by simp [hr])] at h
      exact ⟨rfl, (Host.Outcome.next.inj h).symm⟩
  · rw [exec_of_not_contracted hi] at h
    exact .inl ⟨hi, (Host.Outcome.next.inj h).symm⟩

/-! ### The fields of the state an instruction leads to -/

@[simp] theorem State.after_capacity (s : State) (i : Instr) : (s.after i).capacity = s.capacity := by
  cases i <;> simp [State.after]

@[simp] theorem State.after_policy (s : State) (i : Instr) : (s.after i).policy = s.policy := by
  cases i <;> simp [State.after]

@[simp] theorem State.after_mark (s : State) (i : Instr) : (s.after i).mark = s.mark := by
  cases i <;> simp [State.after]

@[simp] theorem State.after_trace (s : State) (i : Instr) : (s.after i).trace = s.trace := by
  cases i <;> simp [State.after]

theorem State.after_cycle (s : State) (i : Instr) :
    (s.after i).cycle = match i.format with | .cmd => s.cycle + 1 | .out => s.cycle := by
  cases i <;> simp [State.after, Instr.format]

theorem State.after_inited (s : State) (i : Instr) :
    (s.after i).inited = true ↔ s.inited = true ∨ i = .init := by
  cases i <;> simp [State.after]

/-- Cell by cell: what an insert writes, and nothing else (20_memory.md R41). -/
theorem State.after_readCell {s : State} {i : Instr} (hc : s.CellsExist i) (a : Nat) :
    (s.after i).readCell a = match i.inserted with
      | some d => if a = s.wrPtr then some d else s.readCell a
      | none => s.readCell a := by
  cases i <;> simp only [Instr.inserted] <;> try rfl
  all_goals
    simp only [State.after, State.readCell, State.writeCell, Memory.read_write, State.tick_capacity, State.tick_mem]
    have := hc.1 rfl
    by_cases h : a = s.wrPtr <;> simp [h, this]

/-- The ports of a cycle do not depend on the command (41_queries.md R70). -/
theorem State.after_out {s : State} {i : Instr} (h : i.wf = true) :
    (s.after i).out = s.tick.out ∧ (s.after i).draws = s.tick.draws := by
  cases i <;> simp_all [State.after, Instr.wf, Instr.format]

/-- Marking and then the effect is the effect and then the mark. -/
theorem State.after_setMark (s : State) (v : Violation) (i : Instr) :
    (s.setMark v).after i = { s.after i with mark := (s.setMark v).mark } := by
  cases i <;> rfl

/-- What was seen of the ports does not matter to a command (10_state.md R15): a look changes nothing it does. -/
theorem exec_of_out {i : Instr} (h : i.wf = true) (s : State) (p : Ports) : exec i { s with out := p } = exec i s := by
  have hu : ∀ u : State, ustep i { u with out := p } = ustep i u := fun u => by
    cases i <;> first | rfl | simp [Instr.wf, Instr.format] at h
  by_cases hi : i.contracted
  · rw [exec_of_contracted hi, exec_of_contracted hi]
    cases hv : s.violation (opcodeOf i) i.inserted i.removes with
    | none => rw [State.underContract_of_none hv, State.underContract_of_none (by exact hv), hu]
    | some v =>
      obtain hp | hp : s.policy = .fault ∨ s.policy = .mechanical := by cases s.policy <;> simp
      · rw [State.underContract_fault hv hp, State.underContract_fault (by exact hv) (by exact hp)]; rfl
      · rw [State.underContract_mechanical hv hp, State.underContract_mechanical (by exact hv) (by exact hp)]
        exact ite_congr rfl (fun _ => hu (s.setMark v)) fun _ => rfl
  · rw [exec_of_not_contracted hi, exec_of_not_contracted hi]
    cases i <;> first | rfl | simp [Instr.wf, Instr.format] at h

/-- A step is the decoded command on the state without its word, or the end of the trace. -/
theorem step_cases (s : State) :
    (s.trace = [] ∧ step s = .refused .traceEnded) ∨
    ∃ w rest, s.trace = w :: rest ∧ step s = exec (decode w) { s with trace := rest } := by
  unfold step
  cases h : s.trace with
  | nil => exact .inl ⟨rfl, rfl⟩
  | cons w rest => exact .inr ⟨w, rest, rfl, rfl⟩

end Sys2Proof.Machine
end

