-- ==== Sys2Proof/Laws/Contract.lean ====
section
/-! SUPPORT. Commands and the contract: when a command is allowed, what it answers if it is not, what it shows. -/

namespace Sys2Proof.Machine

/-! ### Allowed commands -/

theorem allows_ins {s : State} {d : Byte} (h : s.inited = true) (hc : s.count.toNat < s.capacity) :
    s.Allows (.ins d) := by simp [State.Allows, Instr.inserted, Instr.removes, h, hc]

theorem allows_rem {s : State} (h : s.inited = true) (hc : 0 < s.count.toNat) : s.Allows .rem := by
  simp [State.Allows, Instr.inserted, Instr.removes, h, hc]

theorem allows_insrem {s : State} {d : Byte} (h : s.inited = true) (h0 : 0 < s.count.toNat)
    (hc : s.count.toNat < s.capacity) : s.Allows (.insrem d) := by
  simp [State.Allows, Instr.inserted, Instr.removes, h, hc, h0]

theorem State.Allows.ready {s : State} {i : Instr} (h : s.Allows i) (hc : i.contracted) : s.inited = true :=
  hc.elim (fun h' => (h.1 h').1) (fun h' => (h.2 h').1)

/-- In a reachable state without violation, allowed and violating nothing are the same. -/
theorem allows_iff_no_violation {s : State} (hi : s.Inv) (hm : s.mark = none) (i : Instr) :
    s.Allows i ↔ (i.contracted → s.violation (opcodeOf i) i.inserted i.removes = none) := by
  refine ⟨fun h hc => h.no_violation hc, fun h => ?_⟩
  by_cases hc : i.contracted
  · obtain ⟨h1, h2, h3⟩ := (State.violation_eq_none_iff _ _ _ _).mp (h hc)
    have hle := hi.count_le ⟨h1, hm⟩
    exact ⟨fun h => ⟨h1, by have := h2 h; omega⟩, fun h => ⟨h1, by have := h3 h; omega⟩⟩
  · simp only [Instr.contracted, not_or] at hc
    exact ⟨fun h => absurd h hc.1, fun h => absurd h hc.2⟩

theorem cellsExist_of_inv {s : State} (hi : s.Inv) (i : Instr) (h : i.contracted → s.inited = true) : s.CellsExist i :=
  ⟨fun h' => (hi.cursors (h (.inl h'))).1, fun h' => (hi.cursors (h (.inr h'))).2⟩

/-! ### Commands outside the contract -/

theorem exec_violation_fault {s : State} {i : Instr} {v : Violation} (h : i.contracted)
    (hv : s.violation (opcodeOf i) i.inserted i.removes = some v) (hp : s.policy = .fault) :
    exec i s = .fault (.violation v s.diagnostic) := by
  rw [exec_of_contracted h, State.underContract_fault hv hp]

theorem exec_violation_mechanical {s : State} {i : Instr} {v : Violation} (h : i.contracted)
    (hv : s.violation (opcodeOf i) i.inserted i.removes = some v) (hp : s.policy = .mechanical)
    (hr : s.inited = true) (hc : s.CellsExist i) : exec i s = .next ((s.setMark v).after i) := by
  rw [exec_of_contracted h, State.underContract_mechanical hv hp, if_pos hr, ustep_of_cells (by simpa using hc)]

theorem exec_uninit_mechanical {s : State} {i : Instr} (h : i.contracted) (hp : s.policy = .mechanical)
    (hr : s.inited = false) : exec i s = .next (s.setMark (.useBeforeInit (opcodeOf i))).tick.scramble := by
  rw [exec_of_contracted h, State.underContract_mechanical (State.violation_of_uninit hr _ _ _) hp,
    if_neg (by simp [hr])]

/-! ### Frames and outputs -/

theorem State.commandFrame_after {s : State} {i : Instr} (h : i.wf = true) : s.CommandFrame (s.after i) := by
  cases i <;> simp_all [Instr.wf, Instr.format] <;> constructor <;> simp [State.after]

theorem State.queryFrame_after {s : State} {i : Instr} (h : i.wf = false) : s.QueryFrame (s.after i) := by
  cases i <;> simp_all [Instr.wf, Instr.format] <;> constructor <;> simp [State.after, State.arch]

theorem State.showsOutputs_of_tick {s t : State} (h : s.inited = true) (ht : t.out = s.tick.out) :
    s.ShowsOutputs t := by
  rw [State.tick_out, State.cyclePorts_of_ready h] at ht
  refine ⟨by simp [ht], by simp [ht, ← BitVec.toNat_inj], by simp [ht], fun v hc hv => ?_⟩
  have he : emptyFlag s.count = false := by simpa [emptyFlag] using hc
  have hd : s.headDatum = some v := by simp [State.headDatum, h, he, hv]
  simp [ht, State.portRemData_of_some hd]

/-- A command returns the element at `rd_ptr` if there is one (43_remove.md R80). -/
theorem after_remData {s : State} {v : Byte} {i : Instr} (hi : i.wf = true) (hr : s.inited = true)
    (h0 : 0 < s.count.toNat) (h : s.readCell s.rdPtr = some v) : (s.after i).out.remData = v := by
  have hd : s.headDatum = some v := by simp [State.headDatum, hr, emptyFlag_of_pos h0, h]
  rw [(State.after_out hi).1]
  exact State.portRemData_of_some hd

end Sys2Proof.Machine
end

