-- ==== Sys2Proof/Laws/Contents.lean ====
section
/-! SUPPORT. The contents of the buffer: their length, their oldest element, and what each datapath does to them. -/

namespace Sys2Proof.Machine

theorem State.Good.capacity {s : State} (hg : s.Good) : 1 ≤ s.capacity ∧ s.capacity ≤ 255 :=
  (capacityWf_iff _).mp hg.1.capacity_wf

theorem State.Good.cellsExist {s : State} (hg : s.Good) (i : Instr) : s.CellsExist i :=
  cellsExist_of_inv hg.1 i fun _ => hg.2.1

@[simp] theorem State.contents_length (s : State) : s.contents.length = s.count.toNat := by simp [State.contents]

/-- Two places of the window less than N apart are two cells. -/
theorem window_ne {n r k c : Nat} (h : k < c) (hc : c < n) : (r + k) % n ≠ (r + c) % n := by
  intro h'
  have h2 : k % n = c % n := Nat.ModEq.add_left_cancel' r h'
  rw [Nat.mod_eq_of_lt (by omega), Nat.mod_eq_of_lt hc] at h2
  omega

/-- The insert datapath appends, if the write cursor stands after the last element and there is room. -/
theorem contents_after_ins {s : State} {d : Byte} (hn : s.capacity ≤ 255) (hc : s.count.toNat < s.capacity)
    (hw : s.wrPtr = (s.rdPtr + s.count.toNat) % s.capacity) :
    (s.after (.ins d)).contents = s.contents ++ [some d] := by
  have hwl : s.wrPtr < s.capacity := by rw [hw]; exact Nat.mod_lt _ (by omega)
  have hcell : s.CellsExist (.ins d) := ⟨fun _ => hwl, by simp [Instr.removes]⟩
  have h1 : (s.after (.ins d)).count.toNat = s.count.toNat + 1 := by
    simp [State.after, countUp_toNat (c := s.count) (by omega)]
  have h2 : (s.after (.ins d)).rdPtr = s.rdPtr := by simp [State.after]
  rw [State.contents, h1, h2, List.range_succ, List.map_append]
  congr 1
  · apply List.map_congr_left
    intro k hk
    rw [List.mem_range] at hk
    rw [State.after_readCell hcell]
    simp only [Instr.inserted, State.after_capacity]
    rw [if_neg]
    rw [hw]; exact window_ne hk hc
  · simp only [List.map_cons, List.map_nil, State.after_readCell hcell, Instr.inserted, State.after_capacity]
    rw [if_pos hw.symm]

/-- The remove datapath drops the first element, the one at the read cursor. -/
theorem contents_eq_cons_after_rem {s : State} (hc : 0 < s.count.toNat) (hr : s.rdPtr < s.capacity) :
    s.contents = s.readCell s.rdPtr :: (s.after .rem).contents := by
  obtain ⟨c, hc'⟩ : ∃ c, s.count.toNat = c + 1 := ⟨s.count.toNat - 1, by omega⟩
  have hcell : s.CellsExist .rem := ⟨by simp [Instr.inserted], fun _ => hr⟩
  have h1 : (s.after .rem).count.toNat = c := by simp [State.after, countDown_toNat hc, hc']
  have h2 : (s.after .rem).rdPtr = (s.rdPtr + 1) % s.capacity := by simp [State.after, inc_eq_mod hr]
  rw [State.contents, State.contents, hc', List.range_succ_eq_map, List.map_cons, h1, h2]
  simp only [Nat.add_zero, Nat.mod_eq_of_lt hr, List.map_map]
  congr 1
  apply List.map_congr_left
  intro k _
  rw [State.after_readCell hcell]
  simp only [Function.comp, Instr.inserted, State.after_capacity, Nat.mod_add_mod]
  congr 2
  omega

/-- A non-empty buffer shows its oldest element (41_queries.md R75). -/
theorem State.Good.oldest {s : State} (hg : s.Good) (hc : 0 < s.count.toNat) :
    ∃ v, s.contents.head? = some (some v) ∧ s.headDatum = some v ∧ s.readCell s.rdPtr = some v := by
  have hrd := (hg.1.cursors hg.2.1).2
  have hcont : s.contents.head? = some (s.readCell s.rdPtr) := by rw [contents_eq_cons_after_rem hc hrd]; rfl
  cases hx : s.readCell s.rdPtr with
  | none =>
    have hw := hg.1.written hg.2
    rw [hx] at hcont
    exact absurd (List.mem_of_mem_head? hcont) hw
  | some v => exact ⟨v, by rw [hcont, hx], by simp [State.headDatum, hg.2.1, emptyFlag_of_pos hc, hx], rfl⟩

/-- The invariant speaks of the architectural state, the capacity and the mark only. -/
theorem State.Inv.congr {s t : State} (hi : s.Inv) (h : t.arch = s.arch) (hc : t.capacity = s.capacity)
    (hm : t.mark = s.mark) : t.Inv := by
  simp only [State.arch, Arch.mk.injEq] at h
  obtain ⟨h1, h2, h3, h4, h5⟩ := h
  have hu : t.Unviolated ↔ s.Unviolated := by simp [State.Unviolated, h5, hm]
  have hct : t.contents = s.contents := by simp [State.contents, State.readCell, h2, h3, h4, hc]
  exact
    { capacity_wf := by rw [hc]; exact hi.capacity_wf
      mem_wf := by rw [hc, h4]; exact hi.mem_wf
      uninit := by rw [h5, h4, h1, h2, hc]; exact hi.uninit
      cursors := by rw [h5, h1, h2, hc]; exact hi.cursors
      count_le := by rw [hu, h3, hc]; exact hi.count_le
      distance := by rw [hu, h1, h2, h3, hc]; exact hi.distance
      written := by rw [hu, hct]; exact hi.written }

end Sys2Proof.Machine
end

