-- ==== Sys2Proof/Laws/PerInstr.lean ====
section
/-! SUPPORT. One statement per instruction about its encoding. -/

namespace Sys2Proof.Laws

/-- The canonical word of an instruction, if it has one, selects a row of the opcode map that names the instruction
(30_encoding.md R57). -/
def CanonicalWord.Statement (i : Instr) : Prop :=
  ∀ w, encode i = some w → ∃ r ∈ opcodeRows, r.selects w = true ∧ r.command w = i

theorem CanonicalWord.nop : CanonicalWord.Statement .nop := by
  intro w h
  obtain rfl := Option.some.inj h
  decide

theorem CanonicalWord.ins (d : Byte) : CanonicalWord.Statement (.ins d) := by
  intro w h
  obtain rfl := Option.some.inj h
  revert d
  decide

theorem CanonicalWord.rem : CanonicalWord.Statement .rem := by
  intro w h
  obtain rfl := Option.some.inj h
  decide

theorem CanonicalWord.insrem (d : Byte) : CanonicalWord.Statement (.insrem d) := by
  intro w h
  obtain rfl := Option.some.inj h
  revert d
  decide

theorem CanonicalWord.init : CanonicalWord.Statement .init := by
  intro w h
  obtain rfl := Option.some.inj h
  decide

theorem CanonicalWord.count : CanonicalWord.Statement .count := fun _ h => nomatch h

theorem CanonicalWord.empty : CanonicalWord.Statement .empty := fun _ h => nomatch h

theorem CanonicalWord.full : CanonicalWord.Statement .full := fun _ h => nomatch h

theorem CanonicalWord.head : CanonicalWord.Statement .head := fun _ h => nomatch h

end Sys2Proof.Laws
end

