-- ==== Sys2Proof/Laws/Runs.lean ====
section
/-! SUPPORT. One good step and one cycle of a good run, said once. -/

namespace Sys2Proof.Machine

/-- A word selects a command, never an output function (30_encoding.md R57, R58). -/
theorem decode_wf (w : CommandWord) : (decode w).wf = true := by
  unfold decode
  split
  · rfl
  · split <;> rfl

/-- A step from a reachable state without violation is good exactly if its command is allowed, and leads where the
command leads. -/
theorem step_good_iff {s t : State} {w : CommandWord} {rest : List CommandWord} (hi : s.Inv) (hm : s.mark = none)
    (hw : s.trace = w :: rest) :
    (step s = .next t ∧ t.mark = none) ↔
      s.Allows (decode w) ∧ t = ({ s with trace := rest } : State).after (decode w) := by
  have hi' : ({ s with trace := rest } : State).Inv := State.Inv.congr (s := s) hi rfl rfl rfl
  have hm' : ({ s with trace := rest } : State).mark = none := hm
  have hst : step s = exec (decode w) { s with trace := rest } := by simp [step, hw]
  rw [hst]
  constructor
  · rintro ⟨h, ht⟩
    by_cases hr : s.inited = true
    · obtain ⟨_, ⟨hv, rfl⟩ | ⟨_, v, _, _, rfl⟩⟩ := exec_next_of_ready (s := { s with trace := rest }) hr h
      · exact ⟨(allows_iff_no_violation hi' hm' _).mpr hv, rfl⟩
      · simp at ht
    · have hr' : s.inited = false := by simpa using hr
      obtain ⟨hc, rfl⟩ | ⟨_, _, rfl⟩ := exec_next_of_uninit (s := { s with trace := rest }) hr' h
      · exact ⟨(allows_iff_no_violation hi' hm' _).mpr (fun h => absurd h hc), rfl⟩
      · simp at ht
  · rintro ⟨ha, rfl⟩
    have hc : ({ s with trace := rest } : State).CellsExist (decode w) :=
      cellsExist_of_inv hi' _ (State.Allows.ready (s := { s with trace := rest }) ha)
    exact ⟨exec_of_allows (s := { s with trace := rest }) ha hc, by simp [hm]⟩

/-- One cycle of a good run, unfolded once. -/
theorem goodRun_eq (k : Nat) (s : State) :
    goodRun (k + 1) s = (match s.trace, step s with
      | w :: _, .next t =>
        if t.mark = none then (goodRun k t).map fun r => (r.1, returnedBy (decode w) t ++ r.2) else none
      | _, _ => none) := rfl

theorem goodRun_of_trace_nil {s : State} {k : Nat} (hw : s.trace = []) : goodRun (k + 1) s = none := by
  rw [goodRun_eq, hw]

/-- A good run begins with an allowed command and goes on as a good run. -/
theorem goodRun_succ {s : State} {k : Nat} {r : State × List Byte} {w : CommandWord} {rest : List CommandWord}
    (hi : s.Inv) (hm : s.mark = none) (hw : s.trace = w :: rest) :
    goodRun (k + 1) s = some r ↔ s.Allows (decode w) ∧
      ∃ q, goodRun k (({ s with trace := rest } : State).after (decode w)) = some q ∧
        r = (q.1, returnedBy (decode w) (({ s with trace := rest } : State).after (decode w)) ++ q.2) := by
  rw [goodRun_eq, hw]
  constructor
  · intro h
    split at h
    · next w' rest' t he hs =>
      injection he with he1 he2
      subst he1 he2
      split at h
      · next ht =>
        obtain ⟨ha, rfl⟩ := (step_good_iff hi hm hw).mp ⟨hs, ht⟩
        simp only [Option.map_eq_some_iff] at h
        obtain ⟨q, hq, rfl⟩ := h
        exact ⟨ha, q, hq, rfl⟩
      · cases h
    · cases h
  · rintro ⟨ha, q, hq, rfl⟩
    obtain ⟨hs, ht⟩ := (step_good_iff hi hm hw).mpr ⟨ha, rfl⟩
    rw [hs]
    simp only [ht, if_true, hq]
    rfl

/-- The commands of a run, one cycle unfolded. -/
theorem commands_succ {s : State} {w : CommandWord} {rest : List CommandWord} (k : Nat) (hw : s.trace = w :: rest) :
    s.commands (k + 1) = decode w :: (({ s with trace := rest } : State).after (decode w)).commands k := by
  simp [State.commands, hw]

end Sys2Proof.Machine
end

