-- ==== Sys2Proof/Laws/Trace.lean ====
section
/-! SUPPORT. The trace notation: the ports a line is tested against, how an item expands, how a line is played. -/

namespace Sys2Proof.Machine

/-! ### The ports of a cycle -/

/-- A command that completes has shown the ports of the state before the edge, in every state and under either policy. -/
theorem exec_out {i : Instr} {s t : State} (hi : i.wf = true) (h : exec i s = .next t) : t.out = s.cyclePorts := by
  have ho : ∀ u : State, (u.after i).out = u.cyclePorts := fun u => (State.after_out hi).1
  by_cases hr : s.inited = true
  · obtain ⟨_, ⟨_, rfl⟩ | ⟨_, v, _, _, rfl⟩⟩ := exec_next_of_ready hr h
    · exact ho s
    · rw [State.after_setMark]; exact ho s
  · obtain ⟨_, rfl⟩ | ⟨_, _, rfl⟩ := exec_next_of_uninit (by simpa using hr) h
    · exact ho s
    · simp

/-- So has a step. -/
theorem step_out {s t : State} (h : step s = .next t) : t.out = s.cyclePorts := by
  obtain ⟨_, hs⟩ | ⟨w, rest, _, hs⟩ := step_cases s
  · rw [hs] at h; cases h
  · rw [hs] at h; simpa using exec_out (decode_wf w) h

/-! ### Expansion -/

/-- An item without lines hands its expectations on. -/
theorem expandItems_query {it : TraceItem} (h : itemLines it = []) (rest : List TraceItem) (waiting : List Expectation) :
    expandItems (it :: rest) waiting = expandItems rest (waiting ++ itemQuery it) := by simp [expandItems, h]

/-- The first line of an item takes the expectations that wait. -/
theorem expandItems_lines {it : TraceItem} {l : TraceLine} {ls : List TraceLine} (h : itemLines it = l :: ls)
    (rest : List TraceItem) (waiting : List Expectation) :
    expandItems (it :: rest) waiting = { l with expects := waiting ++ l.expects } :: ls ++ expandItems rest [] := by
  simp [expandItems, h]

/-! ### Playing -/

theorem playLines_of_next {s t : State} (h : step s = .next t) (l : TraceLine) (ls : List TraceLine) :
    playLines (l :: ls) s = ((playLines ls t).1, l.expects.all (meets t.out) && (playLines ls t).2) := by
  rw [step_out h]; simp [playLines, h]

theorem playLines_of_fault {s : State} {r : Fault} (h : step s = .fault r) (l : TraceLine) (ls : List TraceLine) :
    playLines (l :: ls) s = (.fault r, l.expects.all (meets s.cyclePorts)) := by simp [playLines, h]

end Sys2Proof.Machine
end

