-- ==== Sys2Proof/Machine/TraceText.lean ====
section
/-! DEFINITION. The written form of a trace: reading one line of text, and a whole text (30_encoding.md R63, R64;
log entry 16). -/

namespace Sys2Proof.Machine

/-- Why a line of text is no line of a trace. -/
inductive TextError where
  | unknownMnemonic (word : List Char)
  | badNumber (word : List Char)
  | badExpectation (word : List Char)
  | wrongOperands (mnemonic : List Char)
  | outOfBounds (mnemonic : List Char)
  | paramNotFirst
  deriving DecidableEq, Repr

/-- What one line of text says. -/
inductive TextLine where
  | blank
  | param (n : Nat)
  | item (i : TraceItem)
  deriving DecidableEq, Repr

/-- The non-empty pieces between separators, a run of separators counting as one (DESIGN CHOICE, log entry 16); `piece`
is the piece being read, last character first. -/
def pieces (sep : Char → Bool) : List Char → List Char → List (List Char)
  | [], [] => []
  | [], c :: cs => [(c :: cs).reverse]
  | c :: cs, piece =>
    if sep c then
      match piece with
      | [] => pieces sep cs []
      | p :: ps => (p :: ps).reverse :: pieces sep cs []
    else pieces sep cs (c :: piece)

/-- The text before and after the first place where `mark` stands. -/
def cutAt (mark : List Char) : List Char → Option (List Char × List Char)
  | [] => none
  | c :: cs =>
    if mark.isPrefixOf (c :: cs) then some ([], (c :: cs).drop mark.length)
    else (cutAt mark cs).map fun parts => (c :: parts.1, parts.2)

/-- The words of a line, its comment after `;` dropped (30_encoding.md R63); what separates words is a DESIGN CHOICE
(log entry 16). -/
def lineWordsOf (line : List Char) : List (List Char) :=
  pieces (fun c => c == ' ' || c == '\t' || c == ',') (line.takeWhile (· != ';')) []

/-- A digit in base 16, either case. -/
def digitValue (c : Char) : Option Nat :=
  if 48 ≤ c.toNat ∧ c.toNat ≤ 57 then some (c.toNat - 48)
  else if 97 ≤ c.toNat ∧ c.toNat ≤ 102 then some (c.toNat - 87)
  else if 65 ≤ c.toNat ∧ c.toNat ≤ 70 then some (c.toNat - 55)
  else none

/-- The number some digits name in a base, read on from `acc`. -/
def digitsValue (base : Nat) : List Char → Nat → Option Nat
  | [], acc => some acc
  | c :: cs, acc =>
    match digitValue c with
    | some d => if d < base then digitsValue base cs (base * acc + d) else none
    | none => none

/-- A number: decimal, or hexadecimal after `0x` (30_encoding.md R63, 00_scope.md R12). -/
def numberOf : List Char → Except TextError Nat
  | '0' :: 'x' :: c :: cs =>
    match digitsValue 16 (c :: cs) 0 with
    | some n => .ok n
    | none => .error (.badNumber ('0' :: 'x' :: c :: cs))
  | c :: cs =>
    match digitsValue 10 (c :: cs) 0 with
    | some n => .ok n
    | none => .error (.badNumber (c :: cs))
  | [] => .error (.badNumber [])

/-- A bit: 0 or 1. -/
def bitOf (w : List Char) : Except TextError Bool := do
  let n ← numberOf w
  if n = 0 then pure false else if n = 1 then pure true else .error (.badNumber w)

/-- `name=value`, an expectation on one port, with exactly one `=` (30_encoding.md R63). -/
def expectationOf (w : List Char) : Except TextError Expectation :=
  match cutAt ['='] w with
  | some (name, value) =>
    if name = ['c', 'o', 'u', 'n', 't'] then (numberOf value).map .count
    else if name = ['e', 'm', 'p', 't', 'y'] then (bitOf value).map .empty
    else if name = ['f', 'u', 'l', 'l'] then (bitOf value).map .full
    else if name = ['r', 'e', 'm', '_', 'd', 'a', 't', 'a'] then (numberOf value).map .remData
    else .error (.badExpectation w)
  | none => .error (.badExpectation w)

/-- Every word of a list read by one reader. -/
def readAll {α : Type} (read : List Char → Except TextError α) : List (List Char) → Except TextError (List α)
  | [] => .ok []
  | w :: ws => do
    let v ← read w
    let vs ← readAll read ws
    pure (v :: vs)

/-- The words before `->` and, if it stands there, the words after it (30_encoding.md R63, R64). -/
def splitArrow : List (List Char) → List (List Char) × Option (List (List Char))
  | [] => ([], none)
  | w :: ws =>
    if w = ['-', '>'] then ([], some ws)
    else (w :: (splitArrow ws).1, (splitArrow ws).2)

/-- A datum operand, 0 to 255 (30_encoding.md R63). -/
def datumOf (mnemonic w : List Char) : Except TextError Byte := do
  let n ← numberOf w
  if n < 256 then pure (datumOfHost n) else .error (.outOfBounds mnemonic)

/-- An item, if it keeps the notation's bounds (30_encoding.md R64). -/
def boundedItem (mnemonic : List Char) (it : TraceItem) : Except TextError TextLine :=
  if it.wf then .ok (.item it) else .error (.outOfBounds mnemonic)

/-- A command line with its expectations, at least one after an arrow (30_encoding.md R63). -/
def commandLine (mnemonic : List Char) (i : Instr) (after : Option (List (List Char))) : Except TextError TextLine :=
  match after with
  | none => .ok (.item (.line (plainLine i)))
  | some [] => .error (.badExpectation [])
  | some ws => do boundedItem mnemonic (.line { command := i, expects := ← readAll expectationOf ws })

/-- A line that begins with a mnemonic (30_encoding.md R63, R64); every other spelling is rejected by name (log entry
16). -/
def mnemonicLine (m : List Char) (operands : List (List Char)) (after : Option (List (List Char))) :
    Except TextError TextLine :=
  if m = ['N', 'O', 'P'] then
    match operands, after with
    | [], _ => commandLine m .nop after
    | [k], none => do pure (.item (.nops (← numberOf k)))
    | _, _ => .error (.wrongOperands m)
  else if m = ['I', 'N', 'S'] then
    match operands with
    | [d] => do commandLine m (.ins (← datumOf m d)) after
    | _ => .error (.wrongOperands m)
  else if m = ['R', 'E', 'M'] then
    match operands with
    | [] => commandLine m .rem after
    | _ => .error (.wrongOperands m)
  else if m = ['I', 'N', 'S', 'R', 'E', 'M'] then
    match operands with
    | [d] => do commandLine m (.insrem (← datumOf m d)) after
    | _ => .error (.wrongOperands m)
  else if m = ['I', 'N', 'I', 'T'] then
    match operands with
    | [] => commandLine m .init after
    | _ => .error (.wrongOperands m)
  else if m = ['F', 'I', 'L', 'L'] then
    match operands, after with
    | [r], none =>
      match cutAt ['.', '.'] r with
      | some (a, b) => do boundedItem m (.fill (← numberOf a) (← numberOf b))
      | none => .error (.wrongOperands m)
    | _, _ => .error (.wrongOperands m)
  else if m = ['D', 'R', 'A', 'I', 'N'] then
    match operands, after with
    | [k], none => do pure (.item (.drain (← numberOf k)))
    | [k], some vs => do boundedItem m (.drainExpect (← numberOf k) (← readAll numberOf vs))
    | _, _ => .error (.wrongOperands m)
  else if m = ['G', 'E', 'T', 'C', 'O', 'U', 'N', 'T'] then
    match operands, after with
    | [], some [c] => do boundedItem m (.getCount (← numberOf c))
    | _, _ => .error (.wrongOperands m)
  else if m = ['I', 'S', 'E', 'M', 'P', 'T', 'Y'] then
    match operands, after with
    | [], some [b] => do pure (.item (.isEmpty (← bitOf b)))
    | _, _ => .error (.wrongOperands m)
  else if m = ['I', 'S', 'F', 'U', 'L', 'L'] then
    match operands, after with
    | [], some [b] => do pure (.item (.isFull (← bitOf b)))
    | _, _ => .error (.wrongOperands m)
  else .error (.unknownMnemonic m)

/-- `.param N=<n>` (30_encoding.md R63). -/
def paramLine (operands : List (List Char)) : Except TextError TextLine :=
  match operands with
  | [w] =>
    match cutAt ['='] w with
    | some (['N'], n) => do
      let v ← numberOf n
      if capacityWf v then pure (.param v) else .error (.outOfBounds ['N'])
    | _ => .error (.badExpectation w)
  | _ => .error (.wrongOperands ['N'])

/-- One line of text (30_encoding.md R63). -/
def readLine (line : List Char) : Except TextError TextLine :=
  match lineWordsOf line with
  | [] => .ok .blank
  | w :: ws =>
    if w = ['.', 'p', 'a', 'r', 'a', 'm'] then paramLine ws
    else mnemonicLine w (splitArrow ws).1 (splitArrow ws).2

/-- The lines after the first written one: no parameter may stand there (30_encoding.md R63). -/
def readItems : List (List Char) → Except TextError (List TraceItem)
  | [] => .ok []
  | l :: ls => do
    match ← readLine l with
    | .blank => readItems ls
    | .param _ => .error .paramNotFirst
    | .item it => pure (it :: (← readItems ls))

/-- A whole trace, line by line (30_encoding.md R63). -/
def readLines : List (List Char) → Except TextError Trace
  | [] => .ok { capacity := none, items := [] }
  | l :: ls => do
    match ← readLine l with
    | .blank => readLines ls
    | .param n => pure { capacity := some n, items := ← readItems ls }
    | .item it => pure { capacity := none, items := it :: (← readItems ls) }

/-- A whole text (30_encoding.md R63). -/
def readTrace (text : List Char) : Except TextError Trace := readLines (pieces (· == '\n') text [])

end Sys2Proof.Machine
end

