-- ==== Sys2Proof/Tests/Slice0.lean ====
section
/-! SUPPORT. The model's own tests: decoding vectors, one step per case of 95_test_vectors.md, the smoke tests of
WellFormed, and a witness for the hypotheses of every statement. Expected values are the spec's tables'. -/

namespace Sys2Proof.Machine.Tests

open Sys2Proof Sys2Proof.Machine

/-! ### Small states -/

/-- A READY block with capacity `n` and the given registers and cells. -/
def ready (n wr rd : Nat) (c : CountWord) (m : Memory) : State :=
  { State.reset with capacity := n, inited := true, wrPtr := wr, rdPtr := rd, count := c, mem := m }

/-- The same under the policy `mechanical`. -/
def readyMechanical (n wr rd : Nat) (c : CountWord) (m : Memory) : State :=
  { ready n wr rd c m with policy := .mechanical }

/-- A block in UNINIT under the policy `mechanical`. -/
def uninitMechanical : State := { State.reset with policy := .mechanical }

/-- Cursors and count after an outcome. -/
def regsOf : Host.Outcome State Fault Refusal → Option (Nat × Nat × Nat)
  | .next t => some (t.wrPtr, t.rdPtr, t.count.toNat)
  | _ => none

/-- Storage after an outcome. -/
def memOf : Host.Outcome State Fault Refusal → Option Memory
  | .next t => some t.mem
  | _ => none

/-- The ports of the cycle that led to an outcome. -/
def portsOf : Host.Outcome State Fault Refusal → Option Ports
  | .next t => some t.out
  | _ => none

/-- The violation an outcome stops with. -/
def faultOf : Host.Outcome State Fault Refusal → Option Violation
  | .fault (.violation v _) => some v
  | _ => none

/-- The violation an outcome marks. -/
def markOf : Host.Outcome State Fault Refusal → Option Violation
  | .next t => t.mark.map (·.violation)
  | _ => none

/-! ### WellFormed: what each check refuses -/

theorem test_wf_refuses_count : Instr.wf .count = false := by decide
theorem test_wf_refuses_head : Instr.wf .head = false := by decide
theorem test_wf_accepts_insrem : Instr.wf (.insrem 255) = true := by decide
theorem test_wf_refuses_capacity_zero : capacityWf 0 = false := by decide
theorem test_wf_refuses_capacity_256 : capacityWf 256 = false := by decide
theorem test_wf_accepts_capacity_255 : capacityWf 255 = true := by decide
theorem test_wf_refuses_wide_expectation : Expectation.wf (.remData 256) = false := by decide
theorem test_wf_refuses_output_line : TraceLine.wf { command := .empty, expects := [] } = false := by decide
theorem test_wf_refuses_falling_fill : TraceItem.wf (.fill 5 4) = false := by decide
theorem test_wf_refuses_wide_fill : TraceItem.wf (.fill 0 256) = false := by decide
theorem test_wf_refuses_short_drain : TraceItem.wf (.drainExpect 2 [7]) = false := by decide
theorem test_wf_refuses_trace_capacity : Trace.wf { capacity := some 256, items := [] } = false := by decide
theorem test_wf_refuses_trace_item : Trace.wf { capacity := none, items := [.fill 1 0] } = false := by decide
theorem test_mem_wf_refuses_falling : Memory.wf 4 [(2, 0), (1, 0)] = false := by decide
theorem test_mem_wf_refuses_repeat : Memory.wf 4 [(2, 0), (2, 1)] = false := by decide
theorem test_mem_wf_refuses_outside : Memory.wf 4 [(4, 0)] = false := by decide

/-! ### Decoding: words written bit by bit from 30_encoding.md R55, as 95_test_vectors.md 2.1 lists them -/

theorem test_decode_nop : decode 0b00011111111#11 = .nop := by decide
theorem test_decode_ins : decode 0b00100001010#11 = .ins 10 := by decide
theorem test_decode_rem : decode 0b01010100101#11 = .rem := by decide
theorem test_decode_insrem : decode 0b01111111111#11 = .insrem 255 := by decide
theorem test_decode_init : decode 0b11010100101#11 = .init := by decide
theorem test_decode_table_ins : decodeTableWord 16 0x10A = some (.ins 10) := by decide
theorem test_decode_refuses_wide : decodeTableWord 16 0x800 = none := by decide
theorem test_encode_insrem : encode (.insrem 9) = some 0x309 := by decide
theorem test_encode_output_none : encode .full = none := by decide

/-! ### The address generator and the count (95_test_vectors.md 2.2, 2.3) -/

theorem test_inc_wraps_at_255 : inc 255 254 = 0 := by decide
theorem test_inc_wraps_at_power_of_two : inc 128 127 = 0 := by decide
theorem test_inc_at_one : inc 1 0 = 0 := by decide
theorem test_inc_goes_on : inc 200 198 = 199 := by decide
theorem test_count_up_wraps : countUp 255 = 0 := by decide
theorem test_count_down_wraps : countDown 0 = 255 := by decide
theorem test_cursor_width_of_one : Config.cursorWidth 1 = 1 := by decide
theorem test_cursor_width_of_128 : Config.cursorWidth 128 = 7 := by decide
theorem test_cursor_width_of_255 : Config.cursorWidth 255 = 8 := by decide

/-! ### INIT (95_test_vectors.md 2.4) -/

theorem test_init_from_power_up : regsOf (exec .init State.reset) = some (0, 0, 0) := by decide
theorem test_init_with_junk_bits_writes_no_cell :
    memOf (step { ready 4 2 0 2 [(0, 1), (1, 2)] with trace := [0x5FF] }) = some [(0, 1), (1, 2)] := by decide

/-! ### INS (95_test_vectors.md 2.5, 2.8) -/

theorem test_ins_wraps_and_fills : regsOf (exec (.ins 14) (ready 4 3 0 3 [(0, 11), (1, 12), (2, 13)])) = some (0, 0, 4) ∧
    memOf (exec (.ins 14) (ready 4 3 0 3 [(0, 11), (1, 12), (2, 13)])) =
      some [(0, 11), (1, 12), (2, 13), (3, 14)] := by decide
theorem test_ins_overflow : faultOf (exec (.ins 5) (ready 4 0 0 4 [(0, 1), (1, 2), (2, 3), (3, 4)])) =
      some (.overflow 1 5) ∧
    regsOf (exec (.ins 99) (readyMechanical 255 0 0 255 [(0, 1)])) = some (1, 0, 0) := by decide

/-! ### REM (95_test_vectors.md 2.6, 2.8) -/

theorem test_rem_wraps_and_empties : regsOf (exec .rem (ready 4 0 3 1 [(3, 14)])) = some (0, 0, 0) ∧
    portsOf (exec .rem (ready 4 0 3 1 [(3, 14)])) =
      some { count := 1, empty := false, full := false, remData := 14 } := by decide
theorem test_rem_underflow : faultOf (exec .rem (ready 4 0 0 0 [])) = some (.underflow 2) ∧
    regsOf (exec .rem (readyMechanical 4 0 0 0 [])) = some (0, 1, 255) ∧
    markOf (exec .rem (readyMechanical 4 0 0 0 [])) = some (.underflow 2) := by decide

/-! ### INSREM and NOP (95_test_vectors.md 2.7, 2.8) -/

theorem test_insrem_moves_both : regsOf (exec (.insrem 6) (ready 4 2 3 3 [(0, 8), (1, 9), (3, 5)])) = some (3, 0, 3) ∧
    memOf (exec (.insrem 6) (ready 4 2 3 3 [(0, 8), (1, 9), (3, 5)])) = some [(0, 8), (1, 9), (2, 6), (3, 5)] ∧
    (portsOf (exec (.insrem 6) (ready 4 2 3 3 [(0, 8), (1, 9), (3, 5)]))).map (·.remData) = some 5 := by decide
theorem test_insrem_at_the_boundaries :
    faultOf (exec (.insrem 5) (ready 4 0 0 4 [(0, 1), (1, 2), (2, 3), (3, 4)])) = some (.overflow 3 5) ∧
    regsOf (exec (.insrem 5) (readyMechanical 4 0 0 4 [(0, 1), (1, 2), (2, 3), (3, 4)])) = some (1, 1, 4) ∧
    regsOf (exec (.insrem 5) (readyMechanical 4 0 0 0 [])) = some (1, 1, 0) := by decide
theorem test_nop_in_uninit : regsOf (exec .nop State.reset) = some (0, 0, 0) ∧ markOf (exec .nop State.reset) = none := by
  decide
theorem test_use_before_init : faultOf (exec (.ins 1) State.reset) = some (.useBeforeInit 1) ∧
    markOf (exec (.ins 1) uninitMechanical) = some (.useBeforeInit 1) := by decide

/-! ### Outputs (41_queries.md worked examples; 95_test_vectors.md 2.3) -/

theorem test_count_after_ins_10 : (portsOf (exec .count (ready 255 1 0 1 [(0, 10)]))).map (·.count) = some 1 := by decide
theorem test_empty_after_init : (portsOf (exec .empty (ready 255 0 0 0 []))).map (·.empty) = some true := by decide
theorem test_full_at_four : (portsOf (exec .full (ready 4 0 0 4 [(0, 1)]))).map (·.full) = some true := by decide
theorem test_full_is_equality : (portsOf (exec .full (ready 4 1 0 5 [(0, 5)]))).map (·.full) = some false := by decide
theorem test_head_after_ins_10 : (portsOf (exec .head (ready 255 1 0 1 [(0, 10)]))).map (·.remData) = some 10 := by
  decide

/-! ### The step and the trace notation (30_encoding.md R59, R63 to R65) -/

theorem test_step_runs_the_presented_word :
    regsOf (step ((ready 255 0 0 0 []).withFetchWord 16 0x10A)) = some (1, 0, 1) := by decide
theorem test_read_line_with_expectation : (readLine "INS 0x0A -> count=0 empty=1 ; insert ten".toList).toOption =
    some (.item (.line { command := .ins 10, expects := [.count 0, .empty true] })) := by decide
theorem test_read_pseudo_drain : (readLine "DRAIN 2 -> 3, 4".toList).toOption =
    some (.item (.drainExpect 2 [3, 4])) := by decide
theorem test_read_refuses_wide_datum : (readLine "INS 256".toList).toOption = none := by decide
theorem test_read_trace_words : (readTrace ".param N=4\nINIT\nFILL 1..2\nISFULL -> 0\nREM -> rem_data=1".toList).toOption.map
    (fun t => (t.capacity, lineWords (traceLines t), (traceLines t).map (·.expects))) =
    some (some 4, [0x400, 0x101, 0x102, 0x200], [[], [], [], [.full false, .remData 1]]) := by decide
theorem test_source_calls_as_a_trace : lineWords (traceLines { capacity := none, items := [SourceCall.init,
    .insert 10, .getCount 1, .remove (some 10), .getCount 0].map callItem }) = [0x400, 0x10A, 0x200, 0x000] := by decide
theorem test_play_checks_the_cycle :
    (playLines [{ command := .rem, expects := [.remData 10, .count 1] }]
      { ready 255 1 0 1 [(0, 10)] with trace := [0x200] }).2 = true ∧
    (playLines [{ command := .rem, expects := [.remData 11] }]
      { ready 255 1 0 1 [(0, 10)] with trace := [0x200] }).2 = false := by decide

/-- 95_test_vectors.md 2.8, Overflow, cycle 5: the outputs of the violating cycle are expected like any other's. -/
theorem test_play_checks_the_faulting_cycle :
    (playLines [{ command := .ins 5, expects := [.count 4, .empty false, .full true, .remData 1] }]
      { ready 4 0 0 4 [(0, 1), (1, 2), (2, 3), (3, 4)] with trace := [0x105] }).2 = true ∧
    (playLines [{ command := .ins 5, expects := [.count 5] }]
      { ready 4 0 0 4 [(0, 1), (1, 2), (2, 3), (3, 4)] with trace := [0x105] }).2 = false := by decide
theorem test_read_refuses_other_spellings : (readLine "FILL 1.5".toList).toOption = none ∧
    (readLine "FILL 1...5".toList).toOption = none ∧ (readLine "REM -> count==1".toList).toOption = none ∧
    (readLine "REM ->".toList).toOption = none ∧ (readLine "REM -> rem_data=256".toList).toOption = none := by decide
theorem test_concurrent_pair_written : (eventsItems [.call .init, .concurrent 9 none]).map
      (fun items => lineWords (expandItems items [])) =
    [[0x400, 0x309], [0x400, 0x109, 0x200], [0x400, 0x200, 0x109]] := by decide

/-! ### States that meet the invariant -/

/-- The block of 44_concurrent.md R83's worked example, between empty and full: N = 4, contents [7, 8]. -/
def half : State := ready 4 3 1 2 [(1, 7), (2, 8)]

/-- A full block, N = 4, contents [1, 2, 3, 4]. -/
def brimming : State := ready 4 0 0 4 [(0, 1), (1, 2), (2, 3), (3, 4)]

/-- An empty block, N = 4, its cursors in the middle and a stale cell left. -/
def drained : State := ready 4 2 2 0 [(1, 9)]

/-- A full block of one cell. -/
def single : State := ready 1 0 0 1 [(0, 7)]

theorem half_good : half.Good :=
  ⟨⟨by decide, by decide, fun h => absurd h (by decide), fun _ => by decide, fun _ => by decide, fun _ => by decide,
    fun _ => by decide⟩, rfl, rfl⟩

theorem brimming_good : brimming.Good :=
  ⟨⟨by decide, by decide, fun h => absurd h (by decide), fun _ => by decide, fun _ => by decide, fun _ => by decide,
    fun _ => by decide⟩, rfl, rfl⟩

theorem drained_good : drained.Good :=
  ⟨⟨by decide, by decide, fun h => absurd h (by decide), fun _ => by decide, fun _ => by decide, fun _ => by decide,
    fun _ => by decide⟩, rfl, rfl⟩

theorem single_good : single.Good :=
  ⟨⟨by decide, by decide, fun h => absurd h (by decide), fun _ => by decide, fun _ => by decide, fun _ => by decide,
    fun _ => by decide⟩, rfl, rfl⟩

theorem uninit_inv : uninitMechanical.Inv :=
  ⟨by decide, by decide, fun _ => by decide, fun h => absurd h (by decide), fun h => absurd h.1 (by decide),
    fun h => absurd h.1 (by decide), fun h => absurd h.1 (by decide)⟩

/-- A good state stays good with other words to come, or under the other policy. -/
theorem good_of_good {s t : State} (h : s.Good) (ha : t.arch = s.arch) (hc : t.capacity = s.capacity)
    (hm : t.mark = s.mark) : t.Good := by
  refine ⟨h.1.congr ha hc hm, ?_, by rw [hm]; exact h.2.2⟩
  have := congrArg Arch.inited ha
  exact this.trans h.2.1

/-! ### Witnesses: the hypotheses of each statement can be met together -/

theorem witness_DecodeOfEncodeIsTheCommand : Instr.wf (.ins 255) = true ∧ Instr.wf .init = true := by decide

theorem witness_EveryWordSelectsExactlyOneRow : wordOpcode 0x000 = 0b000 ∧ wordOpcode 0x1FF = 0b001 ∧
    wordOpcode 0x2A5 = 0b010 ∧ wordOpcode 0x300 = 0b011 ∧ 0b100 ≤ wordOpcode 0x7FF ∧ 0b100 ≤ wordOpcode 0x400 := by
  decide

theorem witness_IgnoredBitsHaveNoEffect : (wordOpcode 0x000 = 0b000 ∧ wordOpcode 0x0FF = 0b000) ∧
    (wordOpcode 0x200 = 0b010 ∧ wordOpcode 0x2A5 = 0b010) ∧ (wordInit 0x400 = true ∧ wordInit 0x7FF = true) := by decide

theorem witness_ElevenBitWordsAndNoOthersDecode : decodeNat 2047 = .ok .init ∧ (2048 : Nat) ≤ 2048 :=
  ⟨rfl, Nat.le_refl _⟩

theorem witness_DatumPassesUnchanged : (8 : Nat) ≤ 8 ∧ (datumToHost 16 255).toNat = 255 := by decide

theorem witness_StepRunsTheDecodedCommand : ({ half with trace := [0x200] } : State).trace = [0x200] ∧ half.trace = [] :=
  ⟨rfl, rfl⟩

theorem witness_PresentedCommandRuns : encode (.insrem 9) = some 0x309 := by decide

theorem witness_EveryCommandTakesOneCycle : (∃ t, exec .rem half = .next t) ∧ (∃ t, exec .count half = .next t) ∧
    ∃ t, step { half with trace := [0x200] } = .next t := ⟨⟨_, rfl⟩, ⟨_, rfl⟩, ⟨_, rfl⟩⟩

theorem witness_CursorsAdvanceByOneAndWrap : (254 < 255) ∧ half.inited = true ∧ ∃ t, exec (.insrem 9) half = .next t :=
  ⟨by decide, rfl, _, rfl⟩

theorem witness_NAdvancesReturnTheCursor : (0 < 1) ∧ (254 < 255) := by decide

theorem witness_CountArithmeticIsModuloTwoToTheCW : capacityWf 255 = true ∧ (254 : CountWord).toNat < 255 ∧
    0 < (1 : CountWord).toNat := by decide

theorem witness_WhoWritesWhichRegister : half.inited = true ∧ (∃ t, exec (.ins 1) half = .next t) ∧
    (∃ t, exec .rem half = .next t) ∧ (∃ t, exec (.insrem 1) half = .next t) ∧ ∃ t, exec .init half = .next t :=
  ⟨rfl, ⟨_, rfl⟩, ⟨_, rfl⟩, ⟨_, rfl⟩, ⟨_, rfl⟩⟩

theorem witness_CursorsStayValidWithoutContract : 0 < brimming.capacity ∧
    (brimming.inited = true → brimming.wrPtr < brimming.capacity ∧ brimming.rdPtr < brimming.capacity) ∧
    ∃ t, exec (.ins 5) { brimming with policy := .mechanical } = .next t ∧ t.inited = true :=
  ⟨by decide, fun _ => by decide, _, rfl, rfl⟩

theorem witness_ReadyIsEnteredByInitAndNeverLeft : ∃ t, exec .init State.reset = .next t := ⟨_, rfl⟩

theorem witness_OnlyTheCellAtTheWriteCursorChanges : half.inited = true ∧ (∃ t, exec (.ins 9) half = .next t) ∧
    (1 ≠ half.wrPtr) ∧ ∃ t, exec .rem half = .next t := ⟨rfl, ⟨_, rfl⟩, by decide, ⟨_, rfl⟩⟩

/-- `drained` with an insert and a remove to come. -/
def drainedRun : State := { drained with trace := [0x105, 0x200] }

theorem witness_WrittenCellLastsUntilNInsertsLater : ∃ s' t vs, drainedRun.Good ∧
    exec (.ins 6) drainedRun = .next s' ∧ s'.mark = none ∧ goodRun 2 s' = some (t, vs) ∧
    Instr.init ∉ s'.commands 2 ∧ (insertedBy (s'.commands 2)).length < drainedRun.capacity :=
  ⟨_, _, _, good_of_good drained_good rfl rfl rfl, rfl, rfl, rfl, by decide, by decide⟩

theorem witness_OutputsAreThoseBeforeTheEdge : Instr.wf .rem = true ∧ Instr.wf (.ins 1) = true ∧ half.inited = true ∧
    (∃ t, exec .rem half = .next t) ∧ (∃ u, exec (.ins 1) half = .next u) ∧ Instr.wf .head = false :=
  ⟨rfl, rfl, rfl, ⟨_, rfl⟩, ⟨_, rfl⟩, rfl⟩

theorem witness_CountShowsTheRegister : half.inited = true ∧ half.Good := ⟨rfl, half_good⟩

theorem witness_EmptyShowsWhetherCountIsZero : drained.inited = true := rfl

theorem witness_FullShowsWhetherCountIsN : brimming.inited = true := rfl

/-- A READY state after a violation: 95_test_vectors.md 2.8, Overflow, cycle 6. -/
def overrun : State :=
  { readyMechanical 4 1 0 5 [(0, 5), (1, 2), (2, 3), (3, 4)] with
    mark := some { violation := .overflow 1 5, seen := (ready 4 0 0 4 []).diagnostic } }

theorem witness_HeadShowsTheOldestElement : single.Good ∧ 0 < single.count.toNat ∧ overrun.inited = true ∧
    overrun.count ≠ 0 ∧ overrun.readCell overrun.rdPtr = some 5 := ⟨single_good, by decide, by decide⟩

theorem witness_UnspecifiedPortsShowFreshDraws : State.reset.inited = false ∧ drained.count = 0 ∧
    (ready 4 1 0 1 []).readCell (ready 4 1 0 1 []).rdPtr = none ∧ Instr.wf .nop = true ∧
    ∃ t, exec .nop State.reset = .next t := ⟨rfl, rfl, by decide, rfl, _, rfl⟩

theorem witness_EveryObserverSeesTheSamePorts : Instr.wf .empty = false ∧ (∃ a, exec .empty State.reset = .next a) ∧
    Instr.wf .nop = true ∧ ∃ t, exec .nop State.reset = .next t := ⟨rfl, ⟨_, rfl⟩, rfl, ⟨_, rfl⟩⟩

theorem witness_RelationsBetweenTheOutputs : capacityWf brimming.capacity = true ∧ brimming.inited = true ∧
    (∃ t, exec .nop brimming = .next t) ∧ brimming.Good ∧ capacityWf drained.capacity = true ∧ drained.inited = true ∧
    (∃ t, exec .nop drained = .next t) ∧ drained.Good :=
  ⟨by decide, rfl, ⟨_, rfl⟩, brimming_good, by decide, rfl, ⟨_, rfl⟩, drained_good⟩

theorem witness_InsertedElementIsVisibleInTheNextCycle : drained.Good ∧ drained.count = 0 := ⟨drained_good, rfl⟩

theorem witness_InitGivesTheEmptyBufferFromEveryState : capacityWf State.reset.capacity = true := by decide

theorem witness_InitOverridesInsertAndRemove :
    ({ brimming with trace := [0x5FF] } : State).trace = [0x5FF] ∧ wordInit 0x5FF = true := by decide

theorem witness_NopCyclesChangeNoLaterState : half.Allows .rem ∧ (∃ t, exec .rem half = .next t) ∧
    Instr.wf .rem = true ∧ half.Good ∧ 0 < half.count.toNat :=
  ⟨allows_rem rfl (by decide), ⟨_, rfl⟩, rfl, half_good, by decide⟩

theorem witness_InsertWritesAdvancesAndCounts : capacityWf half.capacity = true ∧ half.inited = true ∧
    half.count.toNat < half.capacity ∧ half.wrPtr < half.capacity := by decide

theorem witness_InsertAppendsTheElement : drained.Good ∧ drained.count.toNat < drained.capacity :=
  ⟨drained_good, by decide⟩

theorem witness_RemoveReturnsAdvancesAndCounts : capacityWf brimming.capacity = true ∧ brimming.inited = true ∧
    0 < brimming.count.toNat ∧ brimming.count.toNat ≤ brimming.capacity ∧ brimming.rdPtr < brimming.capacity := by
  decide

theorem witness_RemoveReturnsTheOldestElement : single.Good ∧ 0 < single.count.toNat := ⟨single_good, by decide⟩

theorem witness_InsertRemoveMovesBothCursors : half.inited = true ∧ 0 < half.count.toNat ∧
    half.count.toNat < half.capacity ∧ half.wrPtr < half.capacity ∧ half.rdPtr < half.capacity := by decide

theorem witness_InsertRemoveEqualsItsHalves : half.Good ∧ 0 < half.count.toNat ∧ half.count.toNat < half.capacity ∧
    brimming.Good ∧ brimming.count.toNat = brimming.capacity ∧ drained.Good ∧ drained.count.toNat = 0 :=
  ⟨half_good, by decide, by decide, brimming_good, rfl, drained_good, rfl⟩

theorem witness_InsertRemoveIsNeverLegalAtCapacityOne : single.Inv ∧ single.mark = none ∧ single.policy = .fault ∧
    single.capacity = 1 := ⟨single_good.1, rfl, rfl, rfl⟩

theorem witness_UseBeforeInitIsRaised : State.reset.inited = false ∧ State.reset.policy = .fault ∧
    Instr.inserted .init = none ∧ Instr.removes .init = false := by decide

theorem witness_OverflowIsRaised : brimming.inited = true ∧ brimming.count.toNat = brimming.capacity ∧
    brimming.policy = .fault := by decide

theorem witness_UnderflowIsRaised : 0 < drained.capacity ∧ drained.inited = true ∧ drained.count = 0 ∧
    drained.policy = .fault := by decide

theorem witness_CommandsFaultExactlyOutsideTheContract : half.Inv ∧ half.mark = none ∧ half.policy = .fault ∧
    half.Allows .rem ∧ ¬ drained.Allows .rem :=
  ⟨half_good.1, rfl, rfl, allows_rem rfl (by decide), fun h => absurd (h.2 rfl).2 (by decide)⟩

theorem witness_UnguardedDatapathAtTheBoundaries :
    (let s := { brimming with policy := .mechanical }
     s.inited = true ∧ s.policy = .mechanical ∧ s.wrPtr = s.rdPtr ∧ s.rdPtr < s.capacity ∧ s.count.toNat = s.capacity) ∧
    (let s := { drained with policy := .mechanical }
     s.inited = true ∧ s.policy = .mechanical ∧ s.wrPtr = s.rdPtr ∧ s.rdPtr < s.capacity ∧ s.count = 0) := by decide

theorem witness_PoliciesAgreeOnLegalCommands : half.Allows (.insrem 9) ∧
    ∃ t, exec (.insrem 9) { half with policy := .fault } = .next t :=
  ⟨allows_insrem rfl (by decide) (by decide), _, rfl⟩

theorem witness_MechanicalBlockAlwaysResponds : uninitMechanical.Inv ∧ uninitMechanical.policy = .mechanical :=
  ⟨uninit_inv, rfl⟩

theorem witness_FaultMarkIsSetOnceAndSticky :
    (∃ m t, ({ half with mark := some m } : State).mark = some m ∧ exec .init { half with mark := some m } = .next t) ∧
    uninitMechanical.Inv ∧ uninitMechanical.mark = none ∧ uninitMechanical.policy = .mechanical ∧
    ¬ uninitMechanical.Allows .rem :=
  ⟨⟨{ violation := .underflow 2, seen := half.diagnostic }, _, rfl, rfl⟩, uninit_inv, rfl, rfl,
    fun h => absurd (h.2 rfl).1 (by decide)⟩

theorem witness_MisuseBeforeInitStaysUninitialised : uninitMechanical.inited = false ∧
    uninitMechanical.policy = .mechanical ∧ (Instr.inserted (.ins 1)).isSome = true := by decide

/-- `half` with two removes and an insert to come. -/
def halfRun : State := { half with trace := [0x200, 0x200, 0x105] }

theorem halfRun_good : halfRun.Good := good_of_good half_good rfl rfl rfl

theorem witness_EveryStepKeepsTheInvariant : halfRun.Inv ∧ ∃ t, step halfRun = .next t := ⟨halfRun_good.1, _, rfl⟩

theorem witness_ElementsLeaveInTheOrderTheyEntered : ∃ t vs, halfRun.Good ∧ goodRun 3 halfRun = some (t, vs) ∧
    Instr.init ∉ halfRun.commands 3 := ⟨_, _, halfRun_good, rfl, by decide⟩

theorem witness_RunIsGoodExactlyWhenTheContractIsKept : halfRun.Inv ∧ halfRun.mark = none ∧ 3 ≤ halfRun.trace.length :=
  ⟨halfRun_good.1, rfl, by decide⟩

theorem witness_CountIsInsertsMinusRemoves : ∃ t vs, halfRun.Good ∧ goodRun 3 halfRun = some (t, vs) ∧
    Instr.init ∉ halfRun.commands 3 := ⟨_, _, halfRun_good, rfl, by decide⟩

theorem witness_SnapshotBoundsAreSafe : ∃ t vs, halfRun.Good ∧ goodRun 1 halfRun = some (t, vs) ∧
    Instr.init ∉ halfRun.commands 1 ∧ vs.length < halfRun.count.toNat ∧
    (insertedBy (halfRun.commands 1)).length < halfRun.capacity - halfRun.count.toNat :=
  ⟨_, _, halfRun_good, rfl, by decide, by decide, by decide⟩

/-- `drained` with the words of a fill of N elements and its drain to come. -/
def fillRun : State :=
  { drained with trace := [0x101, 0x102, 0x103, 0x104, 0x200, 0x200, 0x200, 0x200] }

theorem witness_FillThenDrainReturnsTheElements : fillRun.Good ∧ fillRun.count = 0 ∧
    ([1, 2, 3, 4] : List Byte).length ≤ fillRun.capacity ∧
    fillRun.trace = (([1, 2, 3, 4] : List Byte).map fun d => 0x100 + d.setWidth 11) ++ List.replicate 4 0x200 ++ [] :=
  ⟨good_of_good drained_good rfl rfl rfl, rfl, by decide, by decide⟩

/-- `half` seen elsewhere: other cursors, another stale cell, the same contents. -/
def shifted : State := { ready 4 0 2 2 [(1, 99), (2, 7), (3, 8)] with trace := [0x200] }

theorem shifted_good : shifted.Good :=
  ⟨⟨by decide, by decide, fun h => absurd h (by decide), fun _ => by decide, fun _ => by decide, fun _ => by decide,
    fun _ => by decide⟩, rfl, rfl⟩

theorem witness_HiddenStateIsInvisible : ∃ s t : State, s ≠ t ∧ s.Inv ∧ t.Inv ∧ s.mark = none ∧ t.mark = none ∧
    s.Alike t ∧ (∃ s', step s = .next s' ∧ s'.mark = none) :=
  ⟨{ half with trace := [0x200] }, shifted, by decide, half_good.1.congr rfl rfl rfl, shifted_good.1, rfl, rfl,
    ⟨rfl, rfl, rfl, rfl, rfl, rfl, rfl, fun _ => rfl, fun _ => rfl⟩, _, rfl, rfl⟩

theorem witness_HiddenStateIsInvisible_violation : ∃ s t : State, s ≠ t ∧ s.Inv ∧ t.Inv ∧ s.mark = none ∧
    t.mark = none ∧ s.Alike t ∧ ∃ v x, step s = .fault (.violation v x) :=
  ⟨{ drained with trace := [0x200] }, { drained with wrPtr := 0, rdPtr := 0, trace := [0x200] }, by decide,
    drained_good.1.congr rfl rfl rfl,
    ⟨by decide, by decide, fun h => absurd h (by decide), fun _ => by decide, fun _ => by decide, fun _ => by decide,
      fun _ => by decide⟩, rfl, rfl,
    ⟨rfl, rfl, rfl, rfl, rfl, rfl, rfl, fun _ => rfl, fun _ => rfl⟩, _, _, rfl⟩

theorem witness_PseudoCommandsExpandAsTabulated : ((255 : Nat) ≤ 255 ∧ 0 < 255 - 255 + 1) ∧
    itemLines (.isFull true) = [] ∧ itemQuery (.isFull true) ≠ [] ∧
    (∀ q ∈ [TraceItem.getCount 1, .isEmpty false], itemLines q = []) ∧
    itemLines (.drain 2) = [plainLine .rem, plainLine .rem] ∧
    [TraceItem.getCount 1, .isEmpty false].flatMap itemQuery ≠ [] := by decide

theorem witness_ExpectationsAreOnTheOutputsBeforeTheEdge : halfRun.inited = true ∧ (∃ t, step halfRun = .next t) ∧
    ∃ r, step { drained with trace := [0x200] } = .fault r := ⟨rfl, ⟨_, rfl⟩, ⟨_, rfl⟩⟩

theorem witness_ConcurrentPairRunsAlikeHoweverWritten : half.Good ∧ 0 < half.count.toNat ∧
    half.count.toNat < half.capacity ∧ half.contents.head? = some (some 7) := ⟨half_good, by decide⟩

end Sys2Proof.Machine.Tests
end

/-! PROOFS. The statements of 10_state.md: the registers a command writes, the invariant every step keeps, FIFO order,
and what a client cannot see. -/

namespace Sys2Proof.Machine

/-! ### The registers and the storage an instruction leads to (10_state.md R20) -/

theorem State.after_wrPtr (s : State) (i : Instr) :
    (s.after i).wrPtr =
      if i = .init then 0 else if i.inserted.isSome then inc s.capacity s.wrPtr else s.wrPtr := by
  cases i <;> simp [State.after, Instr.inserted]

theorem State.after_rdPtr (s : State) (i : Instr) :
    (s.after i).rdPtr = if i = .init then 0 else if i.removes then inc s.capacity s.rdPtr else s.rdPtr := by
  cases i <;> simp [State.after, Instr.removes]

theorem State.after_count (s : State) (i : Instr) :
    (s.after i).count =
      if i = .init then 0
      else if i.inserted.isSome = true ∧ i.removes = false then s.count + 1
      else if i.inserted = none ∧ i.removes = true then s.count - 1
      else s.count := by
  cases i <;> simp [State.after, Instr.inserted, Instr.removes, countUp, countDown]

/-- In READY, contract kept or not, a command that answers has its effect; at most the mark differs. -/
theorem exec_next_eq_after {i : Instr} {s t : State} (hr : s.inited = true) (h : exec i s = .next t) :
    ∃ m, t = { s.after i with mark := m } := by
  obtain ⟨_, ⟨_, rfl⟩ | ⟨_, v, _, _, rfl⟩⟩ := exec_next_of_ready hr h
  · exact ⟨(s.after i).mark, rfl⟩
  · exact ⟨(s.setMark v).mark, State.after_setMark s v i⟩

theorem init_not_contracted : ¬ Instr.init.contracted := by
  simp [Instr.contracted, Instr.inserted, Instr.removes]

/-! ### Cursors -/

/-- An instruction keeps valid cursors valid, its precondition not asked (10_state.md R23). -/
theorem State.after_cursors_lt {s : State} (hn : 0 < s.capacity)
    (h : s.wrPtr < s.capacity ∧ s.rdPtr < s.capacity) (i : Instr) :
    (s.after i).wrPtr < s.capacity ∧ (s.after i).rdPtr < s.capacity := by
  rw [State.after_wrPtr, State.after_rdPtr]
  refine ⟨?_, ?_⟩ <;> split_ifs
  · exact hn
  · exact inc_lt hn h.1
  · exact h.1
  · exact hn
  · exact inc_lt hn h.2
  · exact h.2

/-- `k` advances of a valid cursor, as one addition modulo N. -/
theorem inc_iterate {n c : Nat} (hc : c < n) (k : Nat) : (inc n)^[k] c = (c + k) % n := by
  induction k with
  | zero => simp [Nat.mod_eq_of_lt hc]
  | succ k ih =>
    rw [Function.iterate_succ_apply', ih, inc_eq_mod (Nat.mod_lt _ (by omega)), Nat.mod_add_mod, Nat.add_assoc]

/-! ### Contents -/

/-- The INSREM datapath drops the first element and appends the new one: it is INS followed by REM. -/
theorem cons_contents_after_insrem {s : State} {d : Byte} (hg : s.Good) (h0 : 0 < s.count.toNat)
    (hc : s.count.toNat < s.capacity) :
    s.readCell s.rdPtr :: (s.after (.insrem d)).contents = s.contents ++ [some d] := by
  have hn := hg.capacity.2
  have hw := hg.1.distance hg.2
  have hrd := (hg.1.cursors hg.2.1).2
  have hup : (s.after (.ins d)).count.toNat = s.count.toNat + 1 := by
    simp [State.after, countUp_toNat (c := s.count) (by omega)]
  have hkept : (s.after (.ins d)).readCell s.rdPtr = s.readCell s.rdPtr := by
    have hne : s.rdPtr ≠ s.wrPtr := by
      have := window_ne (r := s.rdPtr) h0 hc
      rwa [Nat.add_zero, Nat.mod_eq_of_lt hrd, ← hw] at this
    rw [State.after_readCell (hg.cellsExist _)]
    simp [Instr.inserted, hne]
  have htwo : ((s.after (.ins d)).after .rem).contents = (s.after (.insrem d)).contents := by
    simp [State.contents, State.readCell, State.after, countUp, countDown]
  have hcons := contents_eq_cons_after_rem (s := s.after (.ins d)) (by omega) hrd
  calc s.readCell s.rdPtr :: (s.after (.insrem d)).contents
      = (s.after (.ins d)).contents := by
        rw [hcons, htwo, ← hkept]
        rfl
    _ = s.contents ++ [some d] := contents_after_ins hn hc hw

theorem contents_eq_nil {s : State} (h : s.count.toNat = 0) : s.contents = [] :=
  List.eq_nil_of_length_eq_zero (by simpa using h)

theorem contents_after_init (s : State) : (s.after .init).contents = [] :=
  contents_eq_nil rfl

/-- The cell an instruction takes from the buffer, if it removes. -/
def State.taken (s : State) (i : Instr) : List (Option Byte) := if i.removes then [s.readCell s.rdPtr] else []

/-- FIFO order in one command: what it takes and what is held then is what was held and what it inserts
(10_state.md R25). -/
theorem taken_append_contents_after {s : State} {i : Instr} (hg : s.Good) (ha : s.Allows i) (hi : i ≠ .init) :
    s.taken i ++ (s.after i).contents = s.contents ++ i.inserted.toList.map some := by
  cases i with
  | init => exact absurd rfl hi
  | ins d => exact contents_after_ins hg.capacity.2 (ha.1 rfl).2 (hg.1.distance hg.2)
  | rem =>
    rw [contents_eq_cons_after_rem (ha.2 rfl).2 (hg.1.cursors hg.2.1).2]
    simp [State.taken, Instr.removes, Instr.inserted]
  | insrem d => exact cons_contents_after_insrem hg (ha.2 rfl).2 (ha.1 rfl).2
  | nop | count | empty | full | head => exact (List.append_nil s.contents).symm

/-! ### The invariant -/

/-- INIT leads to a state that meets the invariant, from every state that does (40_init.md R67). -/
theorem State.Inv.after_init {s : State} (hi : s.Inv) : (s.after .init).Inv where
  capacity_wf := hi.capacity_wf
  mem_wf := hi.mem_wf
  uninit := fun h => nomatch h
  cursors := fun _ => ⟨((capacityWf_iff _).mp hi.capacity_wf).1, ((capacityWf_iff _).mp hi.capacity_wf).1⟩
  count_le := fun _ => Nat.zero_le _
  distance := fun _ => (Nat.zero_mod _).symm
  written := fun _ => by simp [contents_after_init]

/-- A command under no contract but INIT leaves the architectural state (44_concurrent.md R85, 41_queries.md R70). -/
theorem State.after_arch {s : State} {i : Instr} (hc : ¬ i.contracted) (hi : i ≠ .init) :
    (s.after i).arch = s.arch := by
  cases i with
  | init => exact absurd rfl hi
  | ins d => exact absurd (.inl rfl) hc
  | rem => exact absurd (.inr rfl) hc
  | insrem d => exact absurd (.inl rfl) hc
  | nop | count | empty | full | head => rfl

/-- The invariant does not speak of the words to come. -/
theorem State.Inv.withTrace {s : State} (hi : s.Inv) (tr : List CommandWord) : ({ s with trace := tr } : State).Inv :=
  hi.congr rfl rfl rfl

theorem State.Inv.setMark {s : State} (hi : s.Inv) (v : Violation) : (s.setMark v).Inv where
  capacity_wf := hi.capacity_wf
  mem_wf := hi.mem_wf
  uninit := hi.uninit
  cursors := hi.cursors
  count_le := fun h => absurd h.2 (by simp)
  distance := fun h => absurd h.2 (by simp)
  written := fun h => absurd h.2 (by simp)

/-- In UNINIT the unspecified registers a violation leaves keep the invariant (60_exceptions.md R89). -/
theorem State.Inv.scramble {s : State} (hi : s.Inv) (hr : s.inited = false) : s.scramble.Inv where
  capacity_wf := hi.capacity_wf
  mem_wf := rfl
  uninit := fun _ => ⟨rfl, Nat.mod_lt _ (Nat.two_pow_pos _), Nat.mod_lt _ (Nat.two_pow_pos _)⟩
  cursors := fun h => by simp [hr] at h
  count_le := fun h => by simp [State.Unviolated, hr] at h
  distance := fun h => by simp [State.Unviolated, hr] at h
  written := fun h => by simp [State.Unviolated, hr] at h

theorem State.after_mem_wf {s : State} {i : Instr} (hm : s.mem.wf s.capacity = true) (hc : s.CellsExist i) :
    (s.after i).mem.wf s.capacity = true := by
  cases i with
  | ins d => exact Memory.wf_write hm (hc.1 rfl)
  | insrem d => exact Memory.wf_write hm (hc.1 rfl)
  | rem | nop | init | count | empty | full | head => exact hm

/-- An allowed command keeps the count in range (10_state.md R22). -/
theorem count_le_after {s : State} {i : Instr} (hg : s.Good) (ha : s.Allows i) :
    (s.after i).count.toNat ≤ s.capacity := by
  have hle := hg.1.count_le hg.2
  have hn := hg.capacity.2
  cases i with
  | ins d =>
    have := (ha.1 rfl).2
    simp only [State.after, countUp_toNat (c := s.count) (by omega)]
    omega
  | rem =>
    simp only [State.after, countDown_toNat (ha.2 rfl).2]
    omega
  | init => exact Nat.zero_le _
  | insrem d | nop | count | empty | full | head => exact hle

/-- An allowed command keeps the cursor distance (10_state.md R24). -/
theorem distance_after {s : State} {i : Instr} (hg : s.Good) (ha : s.Allows i) :
    (s.after i).wrPtr = ((s.after i).rdPtr + (s.after i).count.toNat) % s.capacity := by
  obtain ⟨hwr, hrd⟩ := hg.1.cursors hg.2.1
  have hw := hg.1.distance hg.2
  have hn := hg.capacity.2
  cases i with
  | ins d =>
    have := (ha.1 rfl).2
    simp only [State.after, State.writeCell_rdPtr, State.tick_rdPtr, countUp_toNat (c := s.count) (by omega)]
    rw [inc_eq_mod hwr, hw, Nat.mod_add_mod, Nat.add_assoc]
  | rem =>
    have h0 := (ha.2 rfl).2
    simp only [State.after, State.tick_wrPtr, countDown_toNat h0]
    rw [inc_eq_mod hrd, hw, Nat.mod_add_mod]
    congr 1
    omega
  | insrem d =>
    simp only [State.after, State.writeCell_count, State.tick_count]
    rw [inc_eq_mod hrd, inc_eq_mod hwr, hw, Nat.mod_add_mod, Nat.mod_add_mod]
    congr 1
    omega
  | init => exact (Nat.zero_mod _).symm
  | nop | count | empty | full | head => exact hw

/-- After an allowed command every element held is written: it was held before or is the one inserted
(20_memory.md R49). -/
theorem written_after {s : State} {i : Instr} (hg : s.Good) (ha : s.Allows i) (hi : i ≠ .init) :
    none ∉ (s.after i).contents := by
  intro h
  have hmem : none ∈ s.contents ++ i.inserted.toList.map some := by
    rw [← taken_append_contents_after hg ha hi]
    exact List.mem_append_right _ h
  simp [hg.1.written hg.2] at hmem

/-- The effect of an instruction keeps the invariant: its precondition is asked on a run without violation only. -/
theorem State.Inv.after {s : State} {i : Instr} (hi : s.Inv) (hr : i.contracted → s.inited = true)
    (ha : s.mark = none → s.Allows i) : (s.after i).Inv := by
  by_cases hinit : i = .init
  · subst hinit
    exact hi.after_init
  by_cases hc : i.contracted
  · have hready := hr hc
    have hgood : (s.after i).Unviolated → s.Good ∧ s.Allows i := fun h => by
      have hm : s.mark = none := by simpa using h.2
      exact ⟨⟨hi, hready, hm⟩, ha hm⟩
    refine ⟨?_, ?_, fun h => ?_, fun _ => ?_, fun h => ?_, fun h => ?_, fun h => ?_⟩
    · simpa using hi.capacity_wf
    · simpa using State.after_mem_wf hi.mem_wf (cellsExist_of_inv hi i hr)
    · exact absurd ((s.after_inited i).mpr (.inl hready)) (by simp [h])
    · have hn := ((capacityWf_iff _).mp hi.capacity_wf).1
      simpa using State.after_cursors_lt hn (hi.cursors hready) i
    · obtain ⟨hg, ha⟩ := hgood h
      simpa using count_le_after hg ha
    · obtain ⟨hg, ha⟩ := hgood h
      simpa using distance_after hg ha
    · obtain ⟨hg, ha⟩ := hgood h
      exact written_after hg ha hinit
  · exact hi.congr (State.after_arch hc hinit) (s.after_capacity i) (s.after_mark i)

/-- Every instruction that answers keeps the invariant, contract kept or not. -/
theorem exec_keeps_inv {i : Instr} {s t : State} (hi : s.Inv) (h : exec i s = .next t) : t.Inv := by
  cases hr : s.inited with
  | true =>
    obtain ⟨_, ⟨hv, rfl⟩ | ⟨_, v, _, _, rfl⟩⟩ := exec_next_of_ready hr h
    · exact hi.after (fun _ => hr) fun hm => (allows_iff_no_violation hi hm i).mpr hv
    · exact (hi.setMark v).after (fun _ => hr) fun hm => absurd hm (by simp)
  | false =>
    obtain ⟨hc, rfl⟩ | ⟨_, _, rfl⟩ := exec_next_of_uninit hr h
    · exact hi.after (fun h' => absurd h' hc) fun hm =>
        (allows_iff_no_violation hi hm i).mpr fun h' => absurd h' hc
    · have hmarked := hi.setMark (.useBeforeInit (opcodeOf i))
      exact (hmarked.congr (t := (s.setMark _).tick) rfl rfl rfl).scramble hr

/-- Settles O47: a step runs one command on the state without its word, and every command keeps the invariant. -/
theorem everyStepKeepsTheInvariant : Obligations.EveryStepKeepsTheInvariant := by
  unfold Obligations.EveryStepKeepsTheInvariant
  intro s t hi h
  obtain ⟨_, hs⟩ | ⟨w, rest, _, hs⟩ := step_cases s <;> rw [hs] at h
  · cases h
  · exact exec_keeps_inv (hi.withTrace rest) h

/-! ### Runs -/

/-- A good state stays good under allowed commands. -/
theorem State.Good.after {s : State} {i : Instr} (hg : s.Good) (ha : s.Allows i) : (s.after i).Good :=
  ⟨hg.1.after (fun _ => hg.2.1) fun _ => ha, (s.after_inited i).mpr (.inl hg.2.1), by simpa using hg.2.2⟩

/-- What an allowed command returns is the element it takes (43_remove.md R80). -/
theorem returnedBy_after {s : State} {i : Instr} (hg : s.Good) (ha : s.Allows i) (hi : i.wf = true) :
    (returnedBy i (s.after i)).map some = s.taken i := by
  unfold returnedBy State.taken
  split
  · next hrem =>
    have h0 := (ha.2 hrem).2
    obtain ⟨v, _, _, hv⟩ := hg.oldest h0
    simp [after_remData hi hg.2.1 h0 hv, hv]
  · rfl

theorem step_of_trace {s : State} {w : CommandWord} {rest : List CommandWord} (hw : s.trace = w :: rest) :
    step s = exec (decode w) { s with trace := rest } := by simp [step, hw]

theorem insertedBy_cons (i : Instr) (is : List Instr) : insertedBy (i :: is) = i.inserted.toList ++ insertedBy is := by
  cases h : i.inserted <;> simp [insertedBy, h]

/-- Settles O48, by induction on the cycles of the run: each cycle is FIFO order in one command. -/
theorem elementsLeaveInTheOrderTheyEntered : Obligations.ElementsLeaveInTheOrderTheyEntered := by
  unfold Obligations.ElementsLeaveInTheOrderTheyEntered
  intro s t k
  induction k generalizing s with
  | zero =>
    intro vs _ h _
    obtain ⟨rfl, rfl⟩ := Prod.mk.inj (Option.some.inj h)
    simp [State.commands, insertedBy]
  | succ k ih =>
    intro vs hg h hinit
    cases hw : s.trace with
    | nil => simp [goodRun_of_trace_nil hw] at h
    | cons w rest =>
      obtain ⟨ha, ⟨u, us⟩, hq, he⟩ := (goodRun_succ hg.1 hg.2.2 hw).mp h
      obtain ⟨rfl, rfl⟩ := Prod.mk.inj he
      rw [commands_succ k hw] at hinit ⊢
      simp only [List.mem_cons, not_or] at hinit
      obtain ⟨hne, hrest⟩ := hinit
      have hg₁ : ({ s with trace := rest } : State).Good := ⟨hg.1.withTrace rest, hg.2⟩
      have hcycle := taken_append_contents_after hg₁ ha (Ne.symm hne)
      have hlater := ih _ us (hg₁.after ha) hq hrest
      rw [List.map_append, returnedBy_after hg₁ ha (decode_wf w), List.append_assoc, hlater, ← List.append_assoc,
        hcycle, insertedBy_cons, List.map_append, List.append_assoc]
      rfl

/-! ### What a client cannot see (10_state.md R32) -/

/-- The datum on the port is the first element held, so it does not show where the read cursor stands. -/
theorem State.Good.headDatum_eq {s : State} (hg : s.Good) : s.headDatum = s.contents.head?.join := by
  rcases Nat.eq_zero_or_pos s.count.toNat with h0 | h0
  · simp [State.headDatum, (emptyFlag_iff _).mpr h0, contents_eq_nil h0]
  · obtain ⟨v, hcont, hhead, _⟩ := hg.oldest h0
    simp [hcont, hhead]

/-- States that look alike show the same ports. -/
theorem State.Alike.cyclePorts {s t : State} (h : s.Alike t) (hs : s.Inv) (ht : t.Inv) (hms : s.mark = none)
    (hmt : t.mark = none) : s.cyclePorts = t.cyclePorts := by
  cases hr : s.inited with
  | false => rw [State.cyclePorts_of_uninit hr, State.cyclePorts_of_uninit (h.inited ▸ hr), h.draws]
  | true =>
    have hrt : t.inited = true := h.inited ▸ hr
    have hhead : s.headDatum = t.headDatum := by
      rw [State.Good.headDatum_eq ⟨hs, hr, hms⟩, State.Good.headDatum_eq ⟨ht, hrt, hmt⟩, h.contents hr]
    rw [State.cyclePorts_of_ready hr, State.cyclePorts_of_ready hrt]
    simp [State.portRemData, hhead, h.count hr, h.capacity, h.draws]

/-- The contract does not ask for what a client cannot see. -/
theorem State.Alike.violation {s t : State} (h : s.Alike t) (op : Opcode) (datum : Option Byte) (removes : Bool) :
    s.violation op datum removes = t.violation op datum removes := by
  cases hr : s.inited with
  | false => rw [State.violation_of_uninit hr, State.violation_of_uninit (h.inited ▸ hr)]
  | true => simp only [State.violation, ← h.inited, h.count hr, h.capacity]

theorem State.Alike.allows {s t : State} (h : s.Alike t) {i : Instr} (ha : s.Allows i) : t.Allows i := by
  refine ⟨fun hins => ?_, fun hrem => ?_⟩
  · obtain ⟨hr, hc⟩ := ha.1 hins
    exact ⟨h.inited ▸ hr, h.count hr ▸ h.capacity ▸ hc⟩
  · obtain ⟨hr, hc⟩ := ha.2 hrem
    exact ⟨h.inited ▸ hr, h.count hr ▸ hc⟩

theorem State.Alike.withTrace {s t : State} (h : s.Alike t) (tr : List CommandWord) :
    ({ s with trace := tr } : State).Alike { t with trace := tr } :=
  { h with trace := rfl }

/-- The contents after an allowed command follow from the contents before it. -/
theorem contents_after_eq {s t : State} {i : Instr} (hs : s.Good) (ht : t.Good) (has : s.Allows i) (hat : t.Allows i)
    (h : s.contents = t.contents) : (s.after i).contents = (t.after i).contents := by
  by_cases hi : i = .init
  · rw [hi, contents_after_init, contents_after_init]
  · have hsame : s.taken i ++ (s.after i).contents = t.taken i ++ (t.after i).contents := by
      rw [taken_append_contents_after hs has hi, taken_append_contents_after ht hat hi, h]
    refine (List.append_inj hsame ?_).2
    cases hrem : i.removes <;> simp [State.taken, hrem]

/-- An allowed command leads from states a client cannot tell apart to such states. -/
theorem State.Alike.after {s t : State} {i : Instr} (h : s.Alike t) (hs : s.Inv) (ht : t.Inv) (hms : s.mark = none)
    (hmt : t.mark = none) (hi : i.wf = true) (ha : s.Allows i) : (s.after i).Alike (t.after i) := by
  have hframe := State.commandFrame_after (s := s) hi
  have hframe' := State.commandFrame_after (s := t) hi
  refine ⟨?_, ?_, ?_, ?_, ?_, ?_, ?_, fun hr => ?_, fun hr => ?_⟩
  · rw [hframe.capacity, hframe'.capacity, h.capacity]
  · rw [hframe.policy, hframe'.policy, h.policy]
  · rw [Bool.eq_iff_iff, State.after_inited, State.after_inited, h.inited]
  · rw [(State.after_out hi).1, (State.after_out hi).1]
    exact h.cyclePorts hs ht hms hmt
  · rw [hframe.trace, hframe'.trace, h.trace]
  · rw [(State.after_out hi).2, (State.after_out hi).2, State.tick_draws, State.tick_draws, h.draws]
  · rw [hframe.cycle, hframe'.cycle, h.cycle]
  · obtain hr | rfl := (s.after_inited i).mp hr
    · rw [State.after_count, State.after_count, h.count hr]
    · rfl
  · obtain hr | rfl := (s.after_inited i).mp hr
    · exact contents_after_eq ⟨hs, hr, hms⟩ ⟨ht, h.inited ▸ hr, hmt⟩ ha (h.allows ha) (h.contents hr)
    · rw [contents_after_init, contents_after_init]

/-- A fault that reports a violation in a reachable state comes from a command that commits that violation, under the
policy `fault` (60_exceptions.md R97). -/
theorem violation_of_exec_fault {i : Instr} {s : State} {v : Violation} {x : Diagnostic} (hi : s.Inv)
    (h : exec i s = .fault (.violation v x)) :
    i.contracted ∧ s.violation (opcodeOf i) i.inserted i.removes = some v ∧ s.policy = .fault := by
  have hc : i.contracted := by
    by_contra hc
    rw [exec_of_not_contracted hc] at h
    cases h
  cases hv : s.violation (opcodeOf i) i.inserted i.removes with
  | none =>
    have hr := ((State.violation_eq_none_iff _ _ _ _).mp hv).1
    rw [exec_of_no_violation (fun _ => hv) (cellsExist_of_inv hi i fun _ => hr)] at h
    cases h
  | some v' =>
    cases hp : s.policy with
    | fault =>
      rw [exec_violation_fault hc hv hp] at h
      injection h with h
      injection h with hv' _
      exact ⟨hc, congrArg some hv', rfl⟩
    | mechanical =>
      cases hr : s.inited with
      | true =>
        rw [exec_violation_mechanical hc hv hp hr (cellsExist_of_inv hi i fun _ => hr)] at h
        cases h
      | false =>
        rw [exec_uninit_mechanical hc hp hr] at h
        cases h

/-- Settles O53: both states allow the same commands and violate the contract alike, and an allowed command leads to
states that look alike. -/
theorem hiddenStateIsInvisible : Obligations.HiddenStateIsInvisible := by
  unfold Obligations.HiddenStateIsInvisible
  intro s t hs ht hms hmt h
  obtain ⟨_, hstep⟩ | ⟨w, rest, hw, hstep⟩ := step_cases s
  · rw [hstep]
    exact ⟨nofun, nofun⟩
  have hwt : t.trace = w :: rest := h.trace ▸ hw
  have halike := h.withTrace rest
  have hs₁ := hs.withTrace rest
  constructor
  · intro s' hs' hm'
    obtain ⟨ha, rfl⟩ := (step_good_iff hs hms hw).mp ⟨hs', hm'⟩
    obtain ⟨ht', hmt'⟩ := (step_good_iff ht hmt hwt).mpr ⟨h.allows ha, rfl⟩
    exact ⟨_, ht', hmt', halike.after hs₁ (ht.withTrace rest) hms hmt (decode_wf w) ha⟩
  · intro v x hfault
    rw [hstep] at hfault
    obtain ⟨hc, hv, hp⟩ := violation_of_exec_fault hs₁ hfault
    refine ⟨_, (step_of_trace hwt).trans (exec_violation_fault hc ?_ (halike.policy ▸ hp))⟩
    rw [← halike.violation, hv]

/-! ### Registers -/

/-- Settles O13: the effect of the command, whether or not a violation was marked. -/
theorem whoWritesWhichRegister : Obligations.WhoWritesWhichRegister := by
  unfold Obligations.WhoWritesWhichRegister
  intro i s t hr h
  obtain ⟨m, rfl⟩ := exec_next_eq_after hr h
  exact ⟨s.after_wrPtr i, s.after_rdPtr i, s.after_count i⟩

/-- Settles O10: `inc` is addition modulo N, and the register table moves a cursor by `inc` or to INIT's 0 only. -/
theorem cursorsAdvanceByOneAndWrap : Obligations.CursorsAdvanceByOneAndWrap := by
  unfold Obligations.CursorsAdvanceByOneAndWrap
  refine ⟨fun n c hc => ⟨rfl, inc_eq_mod hc, inc_lt (by omega) hc⟩, rfl, fun i s t hr h => ?_⟩
  obtain ⟨hwr, hrd, _⟩ := whoWritesWhichRegister i s t hr h
  constructor
  · split_ifs at hwr with hinit
    · exact .inr (.inr ⟨hinit, hwr⟩)
    · exact .inr (.inl hwr)
    · exact .inl hwr
  · split_ifs at hrd with hinit
    · exact .inr (.inr ⟨hinit, hrd⟩)
    · exact .inr (.inl hrd)
    · exact .inl hrd

/-- Settles O11: N advances add N, which is 0 modulo N. -/
theorem nAdvancesReturnTheCursor : Obligations.NAdvancesReturnTheCursor := by
  unfold Obligations.NAdvancesReturnTheCursor
  intro n c hc
  rw [inc_iterate hc, Nat.add_mod_right, Nat.mod_eq_of_lt hc]

/-- Settles O14: a command in READY keeps valid cursors valid, and of those in UNINIT only INIT makes READY, with
both cursors 0. -/
theorem cursorsStayValidWithoutContract : Obligations.CursorsStayValidWithoutContract := by
  unfold Obligations.CursorsStayValidWithoutContract
  intro i s t hn hcur h ht
  cases hr : s.inited with
  | true =>
    obtain ⟨m, rfl⟩ := exec_next_eq_after hr h
    simpa using State.after_cursors_lt hn (hcur hr) i
  | false =>
    obtain ⟨_, rfl⟩ | ⟨_, _, rfl⟩ := exec_next_of_uninit hr h
    · obtain h' | rfl := (s.after_inited i).mp ht
      · simp [hr] at h'
      · exact ⟨hn, hn⟩
    · simp [hr] at ht

/-- Settles O15: the effect of a command makes READY if it is INIT, and a violation in UNINIT leaves UNINIT. -/
theorem readyIsEnteredByInitAndNeverLeft : Obligations.ReadyIsEnteredByInitAndNeverLeft := by
  unfold Obligations.ReadyIsEnteredByInitAndNeverLeft
  intro i s t h
  cases hr : s.inited with
  | true =>
    obtain ⟨m, rfl⟩ := exec_next_eq_after hr h
    exact ⟨by simp [State.after_inited, hr], s.after_capacity i, s.after_policy i⟩
  | false =>
    obtain ⟨_, rfl⟩ | ⟨hc, _, rfl⟩ := exec_next_of_uninit hr h
    · exact ⟨by rw [State.after_inited, hr], s.after_capacity i, s.after_policy i⟩
    · have hi : i ≠ .init := fun h' => init_not_contracted (h' ▸ hc)
      simp [hr, hi]

/-! ### Count arithmetic and power-up -/

/-- Settles O12: a count below N ≤ 255 has a successor in 8 bits, and one above 0 a predecessor. -/
theorem countArithmeticIsModuloTwoToTheCW : Obligations.CountArithmeticIsModuloTwoToTheCW := by
  unfold Obligations.CountArithmeticIsModuloTwoToTheCW
  refine ⟨fun c => ⟨?_, ?_⟩, fun n c hn => ⟨fun hc => ?_, countDown_toNat⟩⟩
  · simp [countUp, BitVec.toNat_add]
  · simp [countDown, BitVec.toNat_sub, Nat.add_comm]
  · have := ((capacityWf_iff n).mp hn).2
    exact countUp_toNat (by omega)

/-- Power-up is UNINIT with no cell written and both cursors within AW bits (10_state.md R29, R33). -/
theorem reset_inv : State.reset.Inv where
  capacity_wf := rfl
  mem_wf := reset_mem_wf
  uninit := fun _ => ⟨rfl, Nat.two_pow_pos _, Nat.two_pow_pos _⟩
  cursors := fun h => nomatch h
  count_le := fun h => nomatch h.1
  distance := fun h => nomatch h.1
  written := fun h => nomatch h.1

/-- Settles O46: the power-up state field by field, its storage empty. -/
theorem resetMeetsTheInvariant : Obligations.ResetMeetsTheInvariant := by
  unfold Obligations.ResetMeetsTheInvariant
  refine ⟨reset_inv, rfl, fun a => ?_, rfl, rfl, rfl, rfl⟩
  simp [State.readCell, State.reset, Memory.read]

end Sys2Proof.Machine

/-! PROOFS. The statements of 20_memory.md: the write port, how long a written cell lasts, the datum, the ports. -/

namespace Sys2Proof.Machine

/-! ### The write port (20_memory.md R41) -/

/-- The cell at the write cursor holds what the command inserts. -/
theorem State.after_readCell_wrPtr {s : State} {i : Instr} {d : Byte} (hc : s.CellsExist i)
    (hd : i.inserted = some d) : (s.after i).readCell s.wrPtr = some d := by
  simp [State.after_readCell hc, hd]

/-- No other cell changes, and none if the command inserts nothing. -/
theorem State.after_readCell_of_not_written {s : State} {i : Instr} {a : Nat} (hc : s.CellsExist i)
    (h : i.inserted = none ∨ a ≠ s.wrPtr) : (s.after i).readCell a = s.readCell a := by
  rw [State.after_readCell hc]
  split
  · next d hd => exact if_neg (h.resolve_left (by simp [hd]))
  · rfl

/-- Settles O16: a command that answers has its effect on the cells, whether or not a violation was marked. -/
theorem onlyTheCellAtTheWriteCursorChanges : Obligations.OnlyTheCellAtTheWriteCursorChanges := by
  unfold Obligations.OnlyTheCellAtTheWriteCursorChanges
  intro i s t hr h
  obtain ⟨hc, -⟩ := exec_next_of_ready hr h
  obtain ⟨m, rfl⟩ := exec_next_eq_after hr h
  exact ⟨fun _ ha => State.after_readCell_of_not_written hc ha, fun _ hd => State.after_readCell_wrPtr hc hd⟩

/-! ### How long a written cell lasts (20_memory.md R48) -/

/-- A command that answers without a violation from a good state was allowed and had its effect. -/
theorem State.Good.allows_of_exec {s t : State} {i : Instr} (hg : s.Good) (h : exec i s = .next t)
    (hm : t.mark = none) : s.Allows i ∧ t = s.after i := by
  obtain ⟨_, ⟨hv, rfl⟩ | ⟨_, v, _, _, rfl⟩⟩ := exec_next_of_ready hg.2.1 h
  · exact ⟨(allows_iff_no_violation hg.1 hg.2.2 i).mpr hv, rfl⟩
  · simp at hm

theorem State.Good.withTrace {s : State} (hg : s.Good) (tr : List CommandWord) :
    ({ s with trace := tr } : State).Good :=
  ⟨hg.1.withTrace tr, hg.2⟩

/-- A good run from a good state begins with an allowed command and goes on from its effect. -/
theorem State.Good.goodRun_cases {s t : State} {k : Nat} {vs : List Byte} (hg : s.Good)
    (h : goodRun (k + 1) s = some (t, vs)) :
    ∃ w rest us, s.trace = w :: rest ∧ ({ s with trace := rest } : State).Allows (decode w) ∧
      goodRun k (({ s with trace := rest } : State).after (decode w)) = some (t, us) := by
  cases hw : s.trace with
  | nil => simp [goodRun_of_trace_nil hw] at h
  | cons w rest =>
    obtain ⟨ha, ⟨u, us⟩, hq, he⟩ := (goodRun_succ hg.1 hg.2.2 hw).mp h
    obtain ⟨rfl, rfl⟩ := Prod.mk.inj he
    exact ⟨w, rest, us, rfl, ha, hq⟩

/-- An insert brings the write cursor one place nearer to a cell ahead of it; no other command but INIT moves it. -/
theorem State.Good.after_wrPtr_add {s : State} {i : Instr} {j : Nat} (hg : s.Good) (hi : i ≠ .init)
    (hj : i.inserted.toList.length ≤ j) :
    ((s.after i).wrPtr + (j - i.inserted.toList.length)) % s.capacity = (s.wrPtr + j) % s.capacity := by
  have hwr := (hg.1.cursors hg.2.1).1
  rw [State.after_wrPtr, if_neg hi]
  cases hins : i.inserted with
  | none => simp
  | some d =>
    simp only [hins, Option.toList_some, List.length_singleton] at hj
    simp only [Option.isSome_some, if_true, Option.toList_some, List.length_singleton, inc_eq_mod hwr, Nat.mod_add_mod]
    congr 1
    omega

/-- A command does not write the cell `j` places ahead of the write cursor, if it inserts at most `j` elements. -/
theorem State.Good.after_readCell_ahead {s : State} {i : Instr} {j : Nat} (hg : s.Good)
    (hj : i.inserted.toList.length ≤ j) (hn : j < s.capacity) :
    (s.after i).readCell ((s.wrPtr + j) % s.capacity) = s.readCell ((s.wrPtr + j) % s.capacity) := by
  refine State.after_readCell_of_not_written (hg.cellsExist i) ?_
  cases hins : i.inserted with
  | none => exact .inl rfl
  | some d =>
    have hpos : 1 ≤ j := by simpa [hins] using hj
    have hne := window_ne (r := s.wrPtr) hpos hn
    rw [Nat.add_zero, Nat.mod_eq_of_lt (hg.1.cursors hg.2.1).1] at hne
    exact .inr hne.symm

/-- A good run without INIT and with at most `j` inserts keeps the cell `j` places ahead of the write cursor: each
insert brings the cursor one place nearer, and writes where it stood before. -/
theorem State.Good.readCell_ahead_of_goodRun {s t : State} {k j : Nat} {vs : List Byte} (hg : s.Good)
    (h : goodRun k s = some (t, vs)) (hinit : Instr.init ∉ s.commands k)
    (hj : (insertedBy (s.commands k)).length ≤ j) (hn : j < s.capacity) :
    t.readCell ((s.wrPtr + j) % s.capacity) = s.readCell ((s.wrPtr + j) % s.capacity) := by
  induction k generalizing s j vs with
  | zero =>
    obtain ⟨rfl, rfl⟩ := Prod.mk.inj (Option.some.inj h)
    rfl
  | succ k ih =>
    obtain ⟨w, rest, us, hw, ha, hq⟩ := hg.goodRun_cases h
    rw [commands_succ k hw] at hinit hj
    rw [insertedBy_cons, List.length_append] at hj
    rw [List.mem_cons, not_or] at hinit
    obtain ⟨hne, hrest⟩ := hinit
    have hg₁ := hg.withTrace rest
    have hnear := hg₁.after_wrPtr_add (j := j) (Ne.symm hne) (by omega)
    have hlater := ih (hg₁.after ha) hq hrest (j := j - (decode w).inserted.toList.length) (by omega)
      (by simpa using Nat.lt_of_le_of_lt (Nat.sub_le _ _) hn)
    rw [State.after_capacity, hnear] at hlater
    exact hlater.trans (hg₁.after_readCell_ahead (by omega) hn)

/-- Settles O17: after an insert the cell it wrote is N − 1 places ahead of the write cursor. -/
theorem writtenCellLastsUntilNInsertsLater : Obligations.WrittenCellLastsUntilNInsertsLater := by
  unfold Obligations.WrittenCellLastsUntilNInsertsLater
  intro s d s' k t vs hg h hm hrun hinit hlen
  obtain ⟨ha, rfl⟩ := hg.allows_of_exec h hm
  have hwr := (hg.1.cursors hg.2.1).1
  have hplace : ((s.after (.ins d)).wrPtr + (s.capacity - 1)) % s.capacity = s.wrPtr := by
    have := hg.after_wrPtr_add (i := .ins d) (j := s.capacity) nofun hg.capacity.1
    simpa [Instr.inserted, Nat.mod_eq_of_lt hwr] using this
  have hkept := (hg.after ha).readCell_ahead_of_goodRun hrun hinit (j := s.capacity - 1) (by omega)
    (Nat.sub_lt hg.capacity.1 Nat.one_pos)
  rw [State.after_capacity, hplace] at hkept
  rw [hkept, State.after_readCell_wrPtr (hg.cellsExist _) rfl]

/-! ### The datum (20_memory.md R38, 30_encoding.md R56) -/

/-- The operand field of a word is the datum behind the opcode. -/
theorem wordInsData_append (op : Opcode) (d : Byte) : wordInsData (op ++ d) = d :=
  BitVec.extractLsb'_append_eq_right

/-- Settles O6: a datum is a number modulo 256, and as such fits every wider word. -/
theorem datumPassesUnchanged : Obligations.DatumPassesUnchanged := by
  unfold Obligations.DatumPassesUnchanged
  refine ⟨fun k => BitVec.toNat_ofNat k 8, fun v n hn => ?_, fun d => ⟨?_, ?_⟩⟩
  · exact BitVec.toNat_setWidth_of_le hn
  · exact congrArg some (wordInsData_append 0b001 d)
  · exact congrArg some (wordInsData_append 0b011 d)

/-! ### The ports, the same for every observer (20_memory.md R45, 41_queries.md R70) -/

/-- A look changes only what was seen. -/
theorem exec_query {q : Instr} (h : q.wf = false) (s : State) : ∃ p, exec q s = .next { s with out := p } := by
  cases q with
  | nop | ins _ | rem | insrem _ | init => simp [Instr.wf, Instr.format] at h
  | count | empty | full | head => exact ⟨_, rfl⟩

/-- Settles O58: a look changes only what was seen, which neither a port shows nor a command reads. -/
theorem everyObserverSeesTheSamePorts : Obligations.EveryObserverSeesTheSamePorts := by
  unfold Obligations.EveryObserverSeesTheSamePorts
  refine fun s => ⟨rfl, rfl, rfl, rfl, fun q a hq h => ?_, fun i t hi h => exec_out hi h⟩
  obtain ⟨p, hp⟩ := exec_query hq s
  obtain rfl := Host.Outcome.next.inj (hp.symm.trans h)
  exact ⟨s.cyclePorts_out p, fun i hi => exec_of_out hi s p⟩

end Sys2Proof.Machine

/-! PROOFS. The statements of 30_encoding.md: the decoder and the opcode map, the step that runs a presented word, the
contract as the test of legality, written traces. -/

namespace Sys2Proof.Machine

/-! ### The decoder, by opcode (30_encoding.md R55, R57) -/

theorem wordInit_eq (w : CommandWord) : wordInit w = (wordOpcode w).getLsbD 2 := by
  simp [wordInit, wordOpcode]

theorem wordRem_eq (w : CommandWord) : wordRem w = (wordOpcode w).getLsbD 1 := by
  simp [wordRem, wordOpcode]

theorem wordIns_eq (w : CommandWord) : wordIns w = (wordOpcode w).getLsbD 0 := by
  simp [wordIns, wordOpcode]

/-- The opcodes with the bit `init` are those from 4 on. -/
theorem wordInit_iff (w : CommandWord) : wordInit w = true ↔ 0b100 ≤ wordOpcode w := by
  have hbit : ∀ op : Opcode, op.getLsbD 2 = true ↔ 0b100 ≤ op := by decide
  rw [wordInit_eq, hbit]

/-- `init` overrides every other bit. -/
theorem decode_of_wordInit {w : CommandWord} (h : wordInit w = true) : decode w = .init := by
  simp [decode, h]

theorem decode_of_opcode_nop {w : CommandWord} (h : wordOpcode w = 0b000) : decode w = .nop := by
  simp [decode, wordInit_eq, wordRem_eq, wordIns_eq, h]

theorem decode_of_opcode_ins {w : CommandWord} (h : wordOpcode w = 0b001) : decode w = .ins (wordInsData w) := by
  simp [decode, wordInit_eq, wordRem_eq, wordIns_eq, h]

theorem decode_of_opcode_rem {w : CommandWord} (h : wordOpcode w = 0b010) : decode w = .rem := by
  simp [decode, wordInit_eq, wordRem_eq, wordIns_eq, h]

theorem decode_of_opcode_insrem {w : CommandWord} (h : wordOpcode w = 0b011) :
    decode w = .insrem (wordInsData w) := by
  simp [decode, wordInit_eq, wordRem_eq, wordIns_eq, h]

/-! ### The rows of the opcode map (30_encoding.md R57) -/

/-- A word is its opcode field followed by its operand field. -/
theorem wordOpcode_append_wordInsData (w : CommandWord) : wordOpcode w ++ wordInsData w = w :=
  (BitVec.extractLsb'_append_extractLsb'_eq_extractLsb' (x := w) (start₁ := 0) (len₁ := 8) rfl).trans
    BitVec.extractLsb'_eq_self

theorem word_ext_iff {w v : CommandWord} : w = v ↔ wordOpcode w = wordOpcode v ∧ wordInsData w = wordInsData v := by
  refine ⟨fun h => ⟨congrArg wordOpcode h, congrArg wordInsData h⟩, fun ⟨hop, hdata⟩ => ?_⟩
  rw [← wordOpcode_append_wordInsData w, hop, hdata, wordOpcode_append_wordInsData]

/-- A row tests the opcode field only. -/
theorem selects_iff_opcode {r : OpcodeRow} (hr : r ∈ opcodeRows) (w : CommandWord) :
    r.selects w = true ↔ wordOpcode w &&& wordOpcode r.mask = wordOpcode r.pattern := by
  have hoperand : ∀ q ∈ opcodeRows, wordInsData q.mask = 0 ∧ wordInsData q.pattern = 0 := by decide
  obtain ⟨hmask, hpattern⟩ := hoperand r hr
  have hop : wordOpcode (w &&& r.mask) = wordOpcode w &&& wordOpcode r.mask := BitVec.extractLsb'_and
  have hdata : wordInsData (w &&& r.mask) = wordInsData r.pattern := by
    calc wordInsData (w &&& r.mask)
        = wordInsData w &&& wordInsData r.mask := BitVec.extractLsb'_and
      _ = wordInsData r.pattern := by rw [hmask, hpattern]; exact BitVec.and_zero
  rw [OpcodeRow.selects, beq_iff_eq, word_ext_iff, hop, and_iff_left hdata]

/-- Every opcode value passes the test of exactly one row. -/
theorem exists_unique_row_of_opcode : ∀ op : Opcode, ∃ r ∈ opcodeRows,
    op &&& wordOpcode r.mask = wordOpcode r.pattern ∧
      ∀ q ∈ opcodeRows, op &&& wordOpcode q.mask = wordOpcode q.pattern → q = r := by
  decide

/-- A word decodes to the command of the row it selects: the mask keeps the whole opcode, but for INIT. -/
theorem decode_eq_command_of_selects {r : OpcodeRow} {w : CommandWord} (hr : r ∈ opcodeRows)
    (h : r.selects w = true) : decode w = r.command w := by
  have htest := (selects_iff_opcode hr w).mp h
  simp only [opcodeRows, List.mem_cons, List.not_mem_nil, or_false] at hr
  rcases hr with rfl | rfl | rfl | rfl | rfl
  · exact decode_of_opcode_nop (BitVec.and_allOnes.symm.trans htest)
  · exact decode_of_opcode_ins (BitVec.and_allOnes.symm.trans htest)
  · exact decode_of_opcode_rem (BitVec.and_allOnes.symm.trans htest)
  · exact decode_of_opcode_insrem (BitVec.and_allOnes.symm.trans htest)
  · have hinit : ∀ op : Opcode, op &&& 0b100 = 0b100 → op.getLsbD 2 = true := by decide
    exact decode_of_wordInit ((wordInit_eq w).trans (hinit _ htest))

/-! ### The encoder -/

/-- A canonical word selects the row of its command (30_encoding.md R57). -/
theorem canonicalWord_selects (i : Instr) : Laws.CanonicalWord.Statement i := by
  cases i with
  | nop => exact Laws.CanonicalWord.nop
  | ins d => exact Laws.CanonicalWord.ins d
  | rem => exact Laws.CanonicalWord.rem
  | insrem d => exact Laws.CanonicalWord.insrem d
  | init => exact Laws.CanonicalWord.init
  | count => exact Laws.CanonicalWord.count
  | empty => exact Laws.CanonicalWord.empty
  | full => exact Laws.CanonicalWord.full
  | head => exact Laws.CanonicalWord.head

theorem decode_encode {i : Instr} {w : CommandWord} (h : encode i = some w) : decode w = i := by
  obtain ⟨r, hr, hsel, hcommand⟩ := canonicalWord_selects i w h
  rw [decode_eq_command_of_selects hr hsel, hcommand]

/-- Every well-formed instruction has a canonical word (30_encoding.md R58). -/
theorem encode_of_wf {i : Instr} (h : i.wf = true) : ∃ w, encode i = some w := by
  cases i with
  | nop | ins _ | rem | insrem _ | init => exact ⟨_, rfl⟩
  | count | empty | full | head => simp [Instr.wf, Instr.format] at h

/-- Settles O2: a canonical word selects the row of its command, and a word decodes to the command of its row. -/
theorem decodeOfEncodeIsTheCommand : Obligations.DecodeOfEncodeIsTheCommand := by
  unfold Obligations.DecodeOfEncodeIsTheCommand
  intro i h
  obtain ⟨w, hw⟩ := encode_of_wf h
  exact ⟨w, hw, decode_encode hw⟩

/-- A word as a number: the opcode above eight bits of operand. -/
theorem append_eq_add (op : Opcode) (d : Byte) : op ++ d = BitVec.ofNat 11 (op.toNat * 256) + d.setWidth 11 := by
  apply BitVec.eq_of_toNat_eq
  have hop := op.isLt
  have hd := d.isLt
  rw [BitVec.toNat_append, ← Nat.shiftLeft_add_eq_or_of_lt hd, Nat.shiftLeft_eq, BitVec.toNat_add, BitVec.toNat_ofNat,
    BitVec.toNat_setWidth]
  omega

/-- Settles O3: the rows test the opcode field, whose eight values are decided, and a word decodes to the command of
its row. -/
theorem everyWordSelectsExactlyOneRow : Obligations.EveryWordSelectsExactlyOneRow := by
  unfold Obligations.EveryWordSelectsExactlyOneRow
  refine ⟨fun w => ?_, fun w => ⟨decode_of_opcode_nop, decode_of_opcode_ins, decode_of_opcode_rem,
    decode_of_opcode_insrem, fun h => decode_of_wordInit ((wordInit_iff w).mpr h)⟩, rfl, rfl, rfl, fun d => ⟨?_, ?_⟩⟩
  · obtain ⟨r, hr, htest, hunique⟩ := exists_unique_row_of_opcode (wordOpcode w)
    have hsel := (selects_iff_opcode hr w).mpr htest
    exact ⟨r, hr, hsel, decode_eq_command_of_selects hr hsel,
      fun q hq hqsel => hunique q hq ((selects_iff_opcode hq w).mp hqsel)⟩
  · exact congrArg some (append_eq_add 0b001 d)
  · exact congrArg some (append_eq_add 0b011 d)

/-- Settles O1: each vector by its opcode. -/
theorem wordsOfTheVectorsDecode : Obligations.WordsOfTheVectorsDecode := by
  unfold Obligations.WordsOfTheVectorsDecode
  decide

/-- Settles O5: a word is below 2 ^ 11, and so is no wider number. -/
theorem elevenBitWordsAndNoOthersDecode : Obligations.ElevenBitWordsAndNoOthersDecode := by
  unfold Obligations.ElevenBitWordsAndNoOthersDecode
  refine ⟨fun w => ?_, fun n hn => ?_⟩
  · rw [decodeNat, if_pos w.isLt, BitVec.ofNat_toNat, BitVec.setWidth_eq]
  · rw [decodeNat, if_neg (by omega)]

/-! ### The step (30_encoding.md R53, R59, R62) -/

/-- Settles O7: the two cases of a step. -/
theorem stepRunsTheDecodedCommand : Obligations.StepRunsTheDecodedCommand := by
  unfold Obligations.StepRunsTheDecodedCommand
  intro s
  refine ⟨fun w rest hw => step_of_trace hw, fun hw => ?_⟩
  obtain ⟨_, hs⟩ | ⟨w, rest, hw', _⟩ := step_cases s
  · exact hs
  · simp [hw] at hw'

/-- Two words that decode alike step alike. -/
theorem step_congr_decode {w v : CommandWord} (h : decode w = decode v) (s : State) (rest : List CommandWord) :
    step { s with trace := w :: rest } = step { s with trace := v :: rest } := by
  rw [step_of_trace rfl, step_of_trace rfl, h]

/-- Settles O4: the ignored bits are not decoded. -/
theorem ignoredBitsHaveNoEffect : Obligations.IgnoredBitsHaveNoEffect := by
  unfold Obligations.IgnoredBitsHaveNoEffect
  intro s w v rest h
  refine step_congr_decode ?_ s rest
  obtain ⟨hw, hv⟩ | ⟨hw, hv⟩ | ⟨hw, hv⟩ := h
  · rw [decode_of_opcode_nop hw, decode_of_opcode_nop hv]
  · rw [decode_of_opcode_rem hw, decode_of_opcode_rem hv]
  · rw [decode_of_wordInit hw, decode_of_wordInit hv]

theorem withFetchWord_toNat (s : State) (nbits : Nat) (w : CommandWord) :
    s.withFetchWord nbits w.toNat = { s with trace := w :: s.trace.drop 1 } := by
  simp [State.withFetchWord]

/-- Settles O8: the word presented is the canonical one, and decodes to its command. -/
theorem presentedCommandRuns : Obligations.PresentedCommandRuns := by
  unfold Obligations.PresentedCommandRuns
  intro s i w h
  rw [withFetchWord_toNat, step_of_trace rfl, decode_encode h]

/-! ### Legality (30_encoding.md R61, 60_exceptions.md R88) -/

theorem State.Inv.exec_of_allows {s : State} {i : Instr} (hi : s.Inv) (ha : s.Allows i) :
    exec i s = .next (s.after i) :=
  Machine.exec_of_allows ha (cellsExist_of_inv hi i ha.ready)

theorem State.Inv.exec_of_not_allows {s : State} {i : Instr} (hi : s.Inv) (hm : s.mark = none)
    (hp : s.policy = .fault) (ha : ¬ s.Allows i) : ∃ r, exec i s = .fault r := by
  rw [allows_iff_no_violation hi hm, Classical.not_imp] at ha
  obtain ⟨hc, hviolates⟩ := ha
  obtain ⟨v, hv⟩ := Option.ne_none_iff_exists'.mp hviolates
  exact ⟨_, exec_violation_fault hc hv hp⟩

/-- Settles O40: an allowed command has its effect, any other commits a violation and faults. -/
theorem commandsFaultExactlyOutsideTheContract : Obligations.CommandsFaultExactlyOutsideTheContract := by
  unfold Obligations.CommandsFaultExactlyOutsideTheContract
  intro s i hi hm hp
  by_cases ha : s.Allows i
  · rw [hi.exec_of_allows ha]
    simp [ha, hm]
  · obtain ⟨r, hr⟩ := hi.exec_of_not_allows hm hp ha
    rw [hr]
    simp [ha]

/-! ### The lines of the pseudo-commands (30_encoding.md R64) -/

theorem lineWords_map {α : Type} {line : α → TraceLine} {word : α → CommandWord}
    (h : ∀ x, encode (line x).command = some (word x)) (xs : List α) : lineWords (xs.map line) = xs.map word := by
  simp [lineWords, List.filterMap_map, h]

theorem lineWords_cons {l : TraceLine} {w : CommandWord} (h : encode l.command = some w) (ls : List TraceLine) :
    lineWords (l :: ls) = w :: lineWords ls := by
  simp [lineWords, h]

theorem lineWords_replicate {i : Instr} {w : CommandWord} (h : encode i = some w) (k : Nat) :
    lineWords (List.replicate k (plainLine i)) = List.replicate k w :=
  List.filterMap_replicate_of_some h

/-- The canonical word of an insert of a number below 256. -/
theorem ins_word_of_lt {n : Nat} (h : n < 256) : 0b001#3 ++ datumOfHost n = BitVec.ofNat 11 (0x100 + n) := by
  rw [append_eq_add]
  apply BitVec.eq_of_toNat_eq
  simp only [datumOfHost, BitVec.toNat_add, BitVec.toNat_setWidth, BitVec.toNat_ofNat]
  omega

/-- Only an item without lines attaches an expectation. -/
theorem itemLines_of_itemQuery {q : TraceItem} (h : itemQuery q ≠ []) : itemLines q = [] := by
  cases q with
  | getCount | isEmpty | isFull => rfl
  | line | nops | fill | drain | drainExpect => exact absurd rfl h

/-- Items without lines hand all their expectations on, in order. -/
theorem expandItems_queries {qs : List TraceItem} (h : ∀ q ∈ qs, itemLines q = []) (rest : List TraceItem)
    (waiting : List Expectation) :
    expandItems (qs ++ rest) waiting = expandItems rest (waiting ++ qs.flatMap itemQuery) := by
  induction qs generalizing waiting with
  | nil => simp
  | cons q qs ih =>
    obtain ⟨hq, hqs⟩ := List.forall_mem_cons.mp h
    rw [List.cons_append, expandItems_query hq, ih hqs, List.flatMap_cons, List.append_assoc]

/-- A final NOP takes the expectations that wait. -/
theorem expandItems_nil {waiting : List Expectation} (h : waiting ≠ []) :
    expandItems [] waiting = [{ command := .nop, expects := waiting }] := by
  cases waiting with
  | nil => exact absurd rfl h
  | cons e es => rfl

/-- After any number of queries the first line of the next item takes their expectations. -/
theorem expandItems_queries_lines {qs : List TraceItem} {it : TraceItem} {l : TraceLine} {ls : List TraceLine}
    (hqs : ∀ q ∈ qs, itemLines q = []) (hit : itemLines it = l :: ls) (rest : List TraceItem) :
    expandItems (qs ++ it :: rest) [] =
      { command := l.command, expects := qs.flatMap itemQuery ++ l.expects } :: ls ++ expandItems rest [] := by
  rw [expandItems_queries hqs, expandItems_lines hit, List.nil_append]

theorem expandItems_queries_nil {qs : List TraceItem} (hqs : ∀ q ∈ qs, itemLines q = [])
    (h : qs.flatMap itemQuery ≠ []) :
    expandItems qs [] = [{ command := .nop, expects := qs.flatMap itemQuery }] := by
  simpa [expandItems_nil h] using expandItems_queries hqs [] []

/-- Settles O54: the lines of an item are mapped to their words, and queries wait for the next line. -/
theorem pseudoCommandsExpandAsTabulated : Obligations.PseudoCommandsExpandAsTabulated := by
  unfold Obligations.PseudoCommandsExpandAsTabulated
  refine ⟨lineWords_replicate rfl, lineWords_replicate rfl, fun k vs => ⟨?_, ?_⟩, fun a b hab hb => ⟨?_, ?_⟩,
    fun c b => ⟨⟨rfl, rfl⟩, ⟨rfl, rfl⟩, rfl, rfl⟩, fun q l rest hq => ?_, fun q hq => ?_,
    fun qs it rest l ls hqs hit => expandItems_queries_lines hqs hit rest, fun qs hqs => expandItems_queries_nil hqs⟩
  · exact (lineWords_map (fun _ => rfl) vs).trans (List.map_const' ..)
  · simp [itemLines]
  · rw [itemLines, List.length_map, List.length_range]
    omega
  · intro j hj
    have hword : lineWords (itemLines (.fill a b)) =
        (List.range (b + 1 - a)).map fun j => 0b001#3 ++ datumOfHost (a + j) := lineWords_map (fun _ => rfl) _
    rw [hword, List.getElem?_map, List.getElem?_range (by omega), Option.map_some, ins_word_of_lt (by omega),
      Nat.add_assoc]
  · simpa using expandItems_queries_lines (qs := [q]) (it := .line l) (by simpa using hq) rfl rest
  · simpa using expandItems_queries_nil (qs := [q]) (by simpa using itemLines_of_itemQuery hq) (by simpa using hq)

/-! ### Expectations (30_encoding.md R63) -/

/-- Settles O55: a completed step has recorded the ports before the edge, and a faulted line is tested on them. -/
theorem expectationsAreOnTheOutputsBeforeTheEdge : Obligations.ExpectationsAreOnTheOutputsBeforeTheEdge := by
  unfold Obligations.ExpectationsAreOnTheOutputsBeforeTheEdge
  exact fun s l ls => ⟨fun hr => State.showsOutputs_of_tick hr rfl,
    fun t h => ⟨step_out h, playLines_of_next h l ls⟩, fun r h => playLines_of_fault h l ls⟩

/-! ### Source calls (30_encoding.md R65) -/

/-- The commands of some lines but for the idle ones. -/
def busyCommands (ls : List TraceLine) : List Instr := (ls.map (·.command)).filter (· ≠ .nop)

theorem busyCommands_append (ls ls' : List TraceLine) :
    busyCommands (ls ++ ls') = busyCommands ls ++ busyCommands ls' := by
  simp [busyCommands]

@[simp] theorem busyCommands_nops (k : Nat) : busyCommands (itemLines (.nops k)) = [] := by
  simp [busyCommands, itemLines, plainLine]

/-- Expansion moves expectations only, but for a final NOP: the commands are those of the items. -/
theorem busyCommands_expandItems (items : List TraceItem) (waiting : List Expectation) :
    busyCommands (expandItems items waiting) = busyCommands (items.flatMap itemLines) := by
  induction items generalizing waiting with
  | nil => cases waiting <;> rfl
  | cons it rest ih =>
    rw [List.flatMap_cons, busyCommands_append]
    cases hit : itemLines it with
    | nil => rw [expandItems_query hit, ih]; rfl
    | cons l ls =>
      rw [expandItems_lines hit, busyCommands_append, ih]
      rfl

theorem busyCommands_withIdle (idle : List Nat) (items : List TraceItem) :
    busyCommands ((withIdle idle items).flatMap itemLines) = busyCommands (items.flatMap itemLines) := by
  fun_induction withIdle idle items with
  | case1 items => rfl
  | case2 k ks =>
    rw [List.flatMap_singleton, busyCommands_nops]
    rfl
  | case3 k ks it items ih => simp [busyCommands_append, ih]

/-- A sequence of calls is written in one way. -/
theorem eventsItems_calls (cs : List SourceCall) : eventsItems (cs.map .call) = [cs.map callItem] := by
  induction cs with
  | nil => rfl
  | cons c cs ih => simp [eventsItems, eventItems, ih]

/-- Settles O56: each call is one item, and neither expansion nor an idle cycle changes a command other than NOP. -/
theorem callsOfOneContextBecomeTheirLines : Obligations.CallsOfOneContextBecomeTheirLines := by
  unfold Obligations.CallsOfOneContextBecomeTheirLines
  refine ⟨eventsItems_calls, fun _ => rfl, rfl, rfl, fun _ => rfl, fun _ _ => ⟨rfl, rfl, rfl, rfl⟩,
    fun idle items => ?_⟩
  calc busyCommands (expandItems (withIdle idle items) [])
      = busyCommands (items.flatMap itemLines) := by rw [busyCommands_expandItems, busyCommands_withIdle]
    _ = busyCommands (expandItems items []) := (busyCommands_expandItems items []).symm

/-! ### A concurrent insert and remove (30_encoding.md R65, 44_concurrent.md R86) -/

theorem expandItems_lines_only (ls : List TraceLine) : expandItems (ls.map .line) [] = ls := by
  induction ls with
  | nil => rfl
  | cons l ls ih => rw [List.map_cons, expandItems_lines rfl, ih]; rfl

theorem State.after_withTrace (s : State) (i : Instr) (tr : List CommandWord) :
    ({ s with trace := tr } : State).after i = { s.after i with trace := tr } := by
  cases i <;> rfl

/-- Playing a line with an allowed command and expectations that are met goes on with the other lines, from its
effect. -/
theorem State.Good.playLines_cons {s : State} {l : TraceLine} (hg : s.Good) (hwf : l.command.wf = true)
    (ha : s.Allows l.command) (hmet : l.expects.all (meets s.cyclePorts) = true) (ls : List TraceLine) :
    playLines (l :: ls) { s with trace := lineWords (l :: ls) } =
      playLines ls { s.after l.command with trace := lineWords ls } := by
  obtain ⟨w, hw⟩ := encode_of_wf hwf
  have hstep : step { s with trace := w :: lineWords ls } =
      .next { s.after l.command with trace := lineWords ls } := by
    rw [step_of_trace rfl, decode_encode hw, ← State.after_withTrace]
    exact (hg.withTrace _).1.exec_of_allows ha
  rw [lineWords_cons hw]
  simp [playLines, hstep, hmet]

/-- Two lines played one after the other. -/
theorem State.Good.playLines_pair {s : State} {l l' : TraceLine} (hg : s.Good) (hwf : l.command.wf = true)
    (hwf' : l'.command.wf = true) (ha : s.Allows l.command) (ha' : (s.after l.command).Allows l'.command)
    (hmet : l.expects.all (meets s.cyclePorts) = true)
    (hmet' : l'.expects.all (meets (s.after l.command).cyclePorts) = true) :
    playLines [l, l'] { s with trace := lineWords [l, l'] } =
      (.next { (s.after l.command).after l'.command with trace := [] }, true) :=
  (hg.playLines_cons hwf ha hmet [l']).trans ((hg.after ha).playLines_cons hwf' ha' hmet' [])

/-- A line that expects the oldest element is met. -/
theorem State.Good.meets_returns {s : State} {v : Byte} (hg : s.Good) (h : s.contents.head? = some (some v)) :
    (returns (some v)).all (meets s.cyclePorts) = true := by
  have hhead : s.headDatum = some v := by rw [hg.headDatum_eq, h]; rfl
  simp [returns, meets, State.portRemData_of_some hhead]

theorem contents_congr {s t : State} (h : t.arch = s.arch) (hc : t.capacity = s.capacity) : t.contents = s.contents := by
  simp only [State.arch, Arch.mk.injEq] at h
  obtain ⟨_, hrd, hcount, hmem, _⟩ := h
  simp [State.contents, State.readCell, hrd, hcount, hmem, hc]

/-- The two halves, the insert first, do what INSREM does (44_concurrent.md R86). -/
theorem arch_after_ins_rem (s : State) (d : Byte) :
    ((s.after (.ins d)).after .rem).arch = (s.after (.insrem d)).arch := by
  simp [State.after, State.arch, countUp, countDown]

/-- So they do in the other order. -/
theorem arch_after_rem_ins (s : State) (d : Byte) :
    ((s.after .rem).after (.ins d)).arch = (s.after (.insrem d)).arch := by
  simp [State.after, State.arch, countUp, countDown]

theorem contents_after_insrem {s : State} {d : Byte} (hg : s.Good) (h0 : 0 < s.count.toNat)
    (hc : s.count.toNat < s.capacity) : (s.after (.insrem d)).contents = s.contents.tail ++ [some d] := by
  have hne : s.contents ≠ [] := List.ne_nil_of_length_pos (by simpa using h0)
  rw [← List.tail_append_of_ne_nil hne, ← cons_contents_after_insrem hg h0 hc, List.tail_cons]

theorem count_pos_of_contents_head {s : State} {x : Option Byte} (h : s.contents.head? = some x) :
    0 < s.count.toNat :=
  Nat.pos_of_ne_zero fun h0 => by simp [contents_eq_nil h0] at h

/-- Settles O57: each form plays its lines under the contract, the remove in a state whose oldest element is still
`v`, and leads to the architectural state of INSREM. -/
theorem concurrentPairRunsAlikeHoweverWritten : Obligations.ConcurrentPairRunsAlikeHoweverWritten := by
  unfold Obligations.ConcurrentPairRunsAlikeHoweverWritten
  intro s d v hg h0 hc hhead
  have hins := allows_ins (d := d) hg.2.1 hc
  have hrem := allows_rem hg.2.1 h0
  have hmet := hg.meets_returns hhead
  have hend : ∀ t : State, t.arch = (s.after (.insrem d)).arch → t.capacity = s.capacity →
      t.arch = (s.after (.insrem d)).arch ∧ t.contents = s.contents.tail ++ [some d] := fun t h hcap =>
    ⟨h, (contents_congr h hcap).trans (contents_after_insrem hg h0 hc)⟩
  refine ⟨rfl, (s.after (.insrem d)).arch, fun items hitems => ?_⟩
  simp only [eventItems, List.mem_cons, List.not_mem_nil, or_false] at hitems
  rcases hitems with rfl | rfl | rfl
  · have hboth := allows_insrem (d := d) hg.2.1 h0 hc
    exact ⟨_, hg.playLines_cons rfl hboth hmet [], hg.2.2, hend _ rfl rfl⟩
  · have hhead' : (s.after (.ins d)).contents.head? = some (some v) := by
      rw [contents_after_ins hg.capacity.2 hc (hg.1.distance hg.2), List.head?_append, hhead, Option.some_or]
    have hg' := hg.after hins
    have hrem' := allows_rem hg'.2.1 (count_pos_of_contents_head hhead')
    exact ⟨_, hg.playLines_pair rfl rfl hins hrem' rfl (hg'.meets_returns hhead'), hg.2.2,
      hend _ (arch_after_ins_rem s d) rfl⟩
  · have hroom : (s.after .rem).count.toNat < s.capacity := by
      simp only [State.after, countDown_toNat h0]
      omega
    have hins' := allows_ins (d := d) (hg.after hrem).2.1 hroom
    exact ⟨_, hg.playLines_pair rfl rfl hrem hins' hmet rfl, hg.2.2, hend _ (arch_after_rem_ins s d) rfl⟩

end Sys2Proof.Machine

/-! PROOFS. The statements of 40_init.md: INIT from every state, and with other bits set in its word. -/

namespace Sys2Proof.Machine

/-- INIT stands under no contract, so it completes in every state (40_init.md R67). -/
theorem exec_init (s : State) : exec .init s = .next (s.after .init) :=
  exec_of_not_contracted init_not_contracted

/-- What INIT leaves of the architectural state is the storage (40_init.md R69). -/
theorem State.after_init_arch (s : State) :
    (s.after .init).arch = { wrPtr := 0, rdPtr := 0, count := 0, mem := s.mem, inited := true } := rfl

theorem State.after_init_init_arch (s : State) : ((s.after .init).after .init).arch = (s.after .init).arch := by
  rw [State.after_init_arch, State.after_init_arch]
  rfl

/-- After INIT the range of the count, the cursors and their distance meet the invariants (40_init.md R69, 10_state.md
R22 to R24). -/
theorem State.after_init_bounds {s : State} (hn : 0 < s.capacity) :
    (s.after .init).count.toNat ≤ s.capacity ∧ (s.after .init).wrPtr < s.capacity ∧
      (s.after .init).rdPtr < s.capacity ∧
      (s.after .init).wrPtr = ((s.after .init).rdPtr + (s.after .init).count.toNat) % s.capacity :=
  ⟨Nat.zero_le _, hn, hn, (Nat.zero_mod _).symm⟩

/-- The cycle after INIT shows the outputs of an empty buffer, `full` too since a capacity is not 0 (40_init.md R69). -/
theorem State.cyclePorts_after_init {s : State} (hn : 0 < s.capacity) :
    (s.after .init).cyclePorts.empty = true ∧ (s.after .init).cyclePorts.full = false ∧
      (s.after .init).cyclePorts.count = 0 := by
  rw [State.cyclePorts_of_ready rfl]
  exact ⟨rfl, fullFlag_of_ne (Nat.ne_of_lt hn), rfl⟩

/-- Settles O26: INIT completes in every state with its effect, whose fields, next ports and repetition are read off. -/
theorem initGivesTheEmptyBufferFromEveryState : Obligations.InitGivesTheEmptyBufferFromEveryState := by
  unfold Obligations.InitGivesTheEmptyBufferFromEveryState
  intro s
  refine ⟨s.after .init, exec_init s, State.commandFrame_after rfl, rfl, rfl, rfl, rfl, rfl, contents_after_init s,
    fun hwf => ?_, _, exec_init _, s.after_init_init_arch⟩
  have hn : 0 < s.capacity := ((capacityWf_iff _).mp hwf).1
  obtain ⟨hcount, hwr, hrd, hdistance⟩ := State.after_init_bounds hn
  exact ⟨hcount, hwr, hrd, hdistance, _, rfl, State.cyclePorts_after_init hn⟩

/-- Settles O27: a word with `init` decodes to INIT whatever its other bits are, and INIT completes in every state. -/
theorem initOverridesInsertAndRemove : Obligations.InitOverridesInsertAndRemove := by
  unfold Obligations.InitOverridesInsertAndRemove
  intro s w rest hw hinit
  refine ⟨({ s with trace := rest } : State).after .init, ?_, rfl, rfl, rfl, rfl, rfl, rfl, rfl⟩
  rw [step_of_trace hw, decode_of_wordInit hinit, exec_init]

end Sys2Proof.Machine

/-! PROOFS. The statements of 41_queries.md: what the output functions and the ports show, and how far a
count bounds the commands to come. -/

namespace Sys2Proof.Machine

/-! ### Looking at one port (41_queries.md R70) -/

theorem exec_count_of_port {s : State} {c : CountWord} (h : s.cyclePorts.count = c) :
    exec .count s = .next { s with out := { s.out with count := c } } := h ▸ rfl

theorem exec_empty_of_port {s : State} {b : Bool} (h : s.cyclePorts.empty = b) :
    exec .empty s = .next { s with out := { s.out with empty := b } } := h ▸ rfl

theorem exec_full_of_port {s : State} {b : Bool} (h : s.cyclePorts.full = b) :
    exec .full s = .next { s with out := { s.out with full := b } } := h ▸ rfl

theorem exec_head_of_port {s : State} {v : Byte} (h : s.cyclePorts.remData = v) :
    exec .head s = .next { s with out := { s.out with remData := v } } := h ▸ rfl

/-! ### The flags and the datum (41_queries.md R73 to R75) -/

theorem emptyFlag_eq_decide (c : CountWord) : emptyFlag c = decide (c.toNat = 0) := by
  rw [Bool.eq_iff_iff, emptyFlag_iff, decide_eq_true_eq]

theorem fullFlag_eq_decide (n : Nat) (c : CountWord) : fullFlag n c = decide (c.toNat = n) := by
  rw [Bool.eq_iff_iff, fullFlag_iff, decide_eq_true_eq]

/-- A capacity is not 0, so no count is both 0 and N (41_queries.md R76 a). -/
theorem not_emptyFlag_and_fullFlag {n : Nat} (hn : 0 < n) (c : CountWord) :
    ¬ (emptyFlag c = true ∧ fullFlag n c = true) := by
  rw [emptyFlag_iff, fullFlag_iff]
  omega

/-- The spec fixes the datum in READY, while not empty and at a written cell, and nowhere else. -/
theorem State.headDatum_eq_none_iff (s : State) :
    s.headDatum = none ↔ s.inited = false ∨ s.count = 0 ∨ s.readCell s.rdPtr = none := by
  rw [State.headDatum, ite_eq_right_iff]
  cases s.inited <;> simp [emptyFlag, or_iff_not_imp_left]

/-! ### The draw of a cycle (41_queries.md R72) -/

/-- A command leads to a cycle with another draw, in every state and under either policy. -/
theorem draws_lt_of_exec {i : Instr} {s t : State} (hi : i.wf = true) (h : exec i s = .next t) : s.draws < t.draws := by
  cases hr : s.inited with
  | true =>
    obtain ⟨m, rfl⟩ := exec_next_eq_after hr h
    exact (State.after_out hi).2 ▸ Nat.lt_succ_self s.draws
  | false =>
    obtain ⟨_, rfl⟩ | ⟨_, _, rfl⟩ := exec_next_of_uninit hr h
    · exact (State.after_out hi).2 ▸ Nat.lt_succ_self s.draws
    · exact Nat.lt_add_of_pos_right Nat.two_pos

/-! ### The number of legal commands to come (41_queries.md R76 c) -/

/-- From a level, as many inserts keep the contract as places are free. -/
theorem keepsContract_ins_iff (n c : Nat) (ds : List Byte) :
    keepsContract n (some c) (ds.map Instr.ins) = true ↔ ds.length ≤ n - c := by
  induction ds generalizing c with
  | nil => simp [keepsContract]
  | cons d ds ih =>
    by_cases hc : c < n
    · simp only [List.map_cons, keepsContract, levelAfter, if_pos hc, ih, List.length_cons]
      omega
    · simp only [List.map_cons, keepsContract, levelAfter, if_neg hc, List.length_cons, Bool.false_eq_true, false_iff]
      omega

/-- From a level, as many removes keep the contract as elements are held. -/
theorem keepsContract_rem_iff (n c k : Nat) :
    keepsContract n (some c) (List.replicate k Instr.rem) = true ↔ k ≤ c := by
  induction k generalizing c with
  | zero => simp [keepsContract]
  | succ k ih =>
    by_cases hc : 0 < c
    · simp only [List.replicate_succ, keepsContract, levelAfter, if_pos hc, ih]
      omega
    · simp only [List.replicate_succ, keepsContract, levelAfter, if_neg hc, Bool.false_eq_true, false_iff]
      omega

theorem State.level_of_ready {s : State} (h : s.inited = true) : s.level = some s.count.toNat := if_pos h

/-! ### The statements -/

/-- Settles O18: a command that completes shows the ports of the cycle, and a look changes only what was seen. -/
theorem outputsAreThoseBeforeTheEdge : Obligations.OutputsAreThoseBeforeTheEdge := by
  unfold Obligations.OutputsAreThoseBeforeTheEdge
  refine ⟨fun i s t hi hr h => State.showsOutputs_of_tick hr (exec_out hi h),
    fun i j s t u hi hj ht hu => (exec_out hi ht).trans (exec_out hj hu).symm, fun i s hi => ?_⟩
  obtain ⟨p, hp⟩ := exec_query hi s
  exact ⟨_, hp, rfl, rfl, rfl, rfl, rfl, rfl⟩

/-- Settles O22: the port shows the datum at `rd_ptr`, which on a run without violation is the oldest element. -/
theorem headShowsTheOldestElement : Obligations.HeadShowsTheOldestElement := by
  unfold Obligations.HeadShowsTheOldestElement
  constructor
  · intro s hg hc
    obtain ⟨v, hcont, hhead, _⟩ := hg.oldest hc
    exact ⟨v, hcont, exec_head_of_port (State.portRemData_of_some hhead)⟩
  · intro s v hr hc hv
    have hshows : s.ShowsOutputs s.tick := State.showsOutputs_of_tick hr rfl
    exact exec_head_of_port (hshows.remData v hc hv)

/-- Settles O24: the flags are those of one count in a capacity above 0, and that count is the level of the contract. -/
theorem relationsBetweenTheOutputs : Obligations.RelationsBetweenTheOutputs := by
  unfold Obligations.RelationsBetweenTheOutputs
  intro s t hwf hr h
  have hn : 0 < s.capacity := ((capacityWf_iff _).mp hwf).1
  have hexclude := not_emptyFlag_and_fullFlag hn s.count
  rw [exec_out rfl h, State.cyclePorts_of_ready hr, State.level_of_ready hr]
  exact ⟨fun he => Bool.eq_false_iff.mpr fun hf => hexclude ⟨he, hf⟩,
    fun hf => Bool.eq_false_iff.mpr fun he => hexclude ⟨he, hf⟩, emptyFlag_iff _, fullFlag_iff _ _,
    fun _ => ⟨keepsContract_ins_iff _ _, keepsContract_rem_iff _ _⟩⟩

/-- Settles O50: the lengths of the two sides of FIFO order. -/
theorem countIsInsertsMinusRemoves : Obligations.CountIsInsertsMinusRemoves := by
  unfold Obligations.CountIsInsertsMinusRemoves
  intro s t k vs hg hrun hinit
  have hfifo := congrArg List.length (elementsLeaveInTheOrderTheyEntered s t k vs hg hrun hinit)
  simp only [List.length_append, List.length_map, State.contents_length] at hfifo
  omega

/-- Settles O19: in READY the port is the register, in range by the invariant. -/
theorem countShowsTheRegister : Obligations.CountShowsTheRegister := by
  unfold Obligations.CountShowsTheRegister
  exact fun s hr => ⟨exec_count_of_port (by rw [State.cyclePorts_of_ready hr]), fun hg => hg.1.count_le hg.2⟩

/-- Settles O20: in READY the port is the flag `count = 0`. -/
theorem emptyShowsWhetherCountIsZero : Obligations.EmptyShowsWhetherCountIsZero := by
  unfold Obligations.EmptyShowsWhetherCountIsZero
  exact fun s hr => exec_empty_of_port (by rw [State.cyclePorts_of_ready hr, emptyFlag_eq_decide])

/-- Settles O21: in READY the port is the flag `count = N`. -/
theorem fullShowsWhetherCountIsN : Obligations.FullShowsWhetherCountIsN := by
  unfold Obligations.FullShowsWhetherCountIsN
  exact fun s hr => exec_full_of_port (by rw [State.cyclePorts_of_ready hr, fullFlag_eq_decide])

/-- Settles O23: in UNINIT every port is a draw, `rem_data` wherever the spec fixes no datum, and a command moves on to
another draw. -/
theorem unspecifiedPortsShowFreshDraws : Obligations.UnspecifiedPortsShowFreshDraws := by
  unfold Obligations.UnspecifiedPortsShowFreshDraws
  refine ⟨fun s hr => ?_, fun s h => ?_, fun i s t hi h => draws_lt_of_exec hi h⟩
  · have hports := State.cyclePorts_of_uninit hr
    exact ⟨exec_count_of_port (by rw [hports]), exec_empty_of_port (by rw [hports]),
      exec_full_of_port (by rw [hports])⟩
  · exact exec_head_of_port (State.portRemData_of_none ((State.headDatum_eq_none_iff s).mpr h))

end Sys2Proof.Machine

/-! PROOFS. The statements of 42_insert.md: the effect and the frame of INS, and the element it appends. -/

namespace Sys2Proof.Machine

/-! ### The datapath of INS (42_insert.md R77) -/

/-- INS uses the cell at the write cursor only. -/
theorem cellsExist_ins {s : State} {d : Byte} (h : s.wrPtr < s.capacity) : s.CellsExist (.ins d) :=
  ⟨fun _ => h, fun hremoves => nomatch hremoves⟩

/-- A count below N ≤ 255 goes up without wrapping (10_state.md R28). -/
theorem count_after_ins {s : State} {d : Byte} (hn : s.capacity ≤ 255) (hc : s.count.toNat < s.capacity) :
    (s.after (.ins d)).count.toNat = s.count.toNat + 1 :=
  countUp_toNat (Nat.lt_of_lt_of_le hc hn)

/-- On a run without violation the write cursor stands outside the contents window while there is room
(42_insert.md R79). -/
theorem State.Good.window_ne_wrPtr {s : State} {k : Nat} (hg : s.Good) (hc : s.count.toNat < s.capacity)
    (hk : k < s.count.toNat) : (s.rdPtr + k) % s.capacity ≠ s.wrPtr := by
  rw [hg.1.distance hg.2]
  exact window_ne hk hc

/-! ### The statements -/

/-- Settles O30: INS is allowed and its cell exists, so it completes with its effect; the flags are those of a count one
up. -/
theorem insertWritesAdvancesAndCounts : Obligations.InsertWritesAdvancesAndCounts := by
  unfold Obligations.InsertWritesAdvancesAndCounts
  intro s d hwf hr hc hwr
  have hcell := cellsExist_ins (d := d) hwr
  have hcount := count_after_ins (d := d) ((capacityWf_iff _).mp hwf).2 hc
  refine ⟨s.after (.ins d), exec_of_allows (allows_ins hr hc) hcell, State.commandFrame_after rfl,
    State.showsOutputs_of_tick hr rfl, rfl, hcount, rfl, hr, State.after_readCell_wrPtr hcell rfl,
    fun a ha => State.after_readCell_of_not_written hcell (.inr ha), ?_, ?_⟩
  · exact emptyFlag_of_pos (by omega)
  · rw [fullFlag_iff, hcount, State.after_capacity]

/-- Settles O31: INS keeps the invariant, which bounds the count and the cursors after it; the cell it writes is the
first one behind the contents window. -/
theorem insertAppendsTheElement : Obligations.InsertAppendsTheElement := by
  unfold Obligations.InsertAppendsTheElement
  intro s d hg hc
  have ha := allows_ins (d := d) hg.2.1 hc
  have hcell := hg.cellsExist (.ins d)
  obtain ⟨hinv, hunviolated⟩ := hg.after ha
  obtain ⟨hwr, hrd⟩ := hinv.cursors hunviolated.1
  exact ⟨s.after (.ins d), hg.1.exec_of_allows ha, contents_after_ins hg.capacity.2 hc (hg.1.distance hg.2),
    count_after_ins hg.capacity.2 hc, hinv.count_le hunviolated, rfl, inc_eq_mod (hg.1.cursors hg.2.1).1,
    fun a hne => State.after_readCell_of_not_written hcell (.inr hne), fun k hk => hg.window_ne_wrPtr hc hk,
    hwr, hrd, hinv.distance hunviolated⟩

end Sys2Proof.Machine

/-! PROOFS. The statements of 43_remove.md: the effect and the frame of REM, the element it returns, fill and drain. -/

namespace Sys2Proof.Machine

/-! ### The datapath of REM (43_remove.md R80) -/

/-- REM uses the cell at the read cursor only. -/
theorem cellsExist_rem {s : State} (h : s.rdPtr < s.capacity) : s.CellsExist .rem :=
  ⟨fun hinserts => (nomatch hinserts), fun _ => h⟩

/-- A count above 0 goes down without wrapping (10_state.md R28). -/
theorem count_after_rem {s : State} (hc : 0 < s.count.toNat) : (s.after .rem).count.toNat = s.count.toNat - 1 :=
  countDown_toNat hc

/-- A legal REM takes the oldest element from the contents and shows it (43_remove.md R82). -/
theorem State.Good.contents_eq_cons_remData {s : State} (hg : s.Good) (hc : 0 < s.count.toNat) :
    s.contents = some (s.after .rem).out.remData :: (s.after .rem).contents := by
  obtain ⟨v, -, -, hv⟩ := hg.oldest hc
  rw [after_remData rfl hg.2.1 hc hv, ← hv]
  exact contents_eq_cons_after_rem hc (hg.1.cursors hg.2.1).2

/-! ### Good runs, command by command (70_reset_and_hazards.md R116) -/

/-- A word that selects an allowed command begins a good run; its effect is where the rest of the run starts. -/
theorem State.Good.goodRun_cons {s t : State} {w : CommandWord} {rest : List CommandWord} {i : Instr} {k : Nat}
    {vs : List Byte} (hg : s.Good) (hw : s.trace = w :: rest) (hi : decode w = i) (ha : s.Allows i)
    (h : goodRun k { s.after i with trace := rest } = some (t, vs)) :
    goodRun (k + 1) s = some (t, returnedBy i (s.after i) ++ vs) := by
  subst hi
  rw [← State.after_withTrace] at h
  have hreturned : returnedBy (decode w) (({ s with trace := rest } : State).after (decode w)) =
      returnedBy (decode w) (s.after (decode w)) := by rw [State.after_withTrace]; rfl
  exact (goodRun_succ hg.1 hg.2.2 hw).mpr ⟨ha, (t, vs), h, by rw [hreturned]⟩

/-- Two good runs, the second from where the first ends, are one good run. -/
theorem goodRun_add {s m t : State} {j k : Nat} {us vs : List Byte} (hj : goodRun j s = some (m, us))
    (hk : goodRun k m = some (t, vs)) : goodRun (j + k) s = some (t, us ++ vs) := by
  induction j generalizing s us with
  | zero =>
    obtain ⟨rfl, rfl⟩ := Prod.mk.inj (Option.some.inj hj)
    simpa using hk
  | succ j ih =>
    rw [Nat.succ_add]
    rw [goodRun_eq] at hj ⊢
    split at hj
    · next w _ u hw hstep =>
      split at hj
      · next hm =>
        obtain ⟨⟨m', us'⟩, hrun, heq⟩ := Option.map_eq_some_iff.mp hj
        obtain ⟨rfl, rfl⟩ := Prod.mk.inj heq
        simp [hm, ih hrun]
      · cases hj
    · cases hj

/-! ### Fill and drain (95_test_vectors.md S0 T2, T4, T5) -/

/-- The word of an insert as the test vectors spell it. -/
theorem decode_ins_word (d : Byte) : decode (0x100 + d.setWidth 11) = .ins d :=
  decode_encode (congrArg some (append_eq_add 0b001 d))

theorem decode_rem_word : decode 0x200 = .rem := decode_encode (i := .rem) rfl

/-- Inserts that fit run without violation and append their elements; the induction takes the first one off the list. -/
theorem State.Good.fill {s : State} {ds : List Byte} {rest : List CommandWord} (hg : s.Good)
    (hroom : s.count.toNat + ds.length ≤ s.capacity)
    (htrace : s.trace = (ds.map fun d => 0x100 + d.setWidth 11) ++ rest) :
    ∃ m, goodRun ds.length s = some (m, []) ∧ m.Good ∧ m.contents = s.contents ++ ds.map some ∧ m.trace = rest := by
  induction ds generalizing s with
  | nil => exact ⟨s, rfl, hg, (List.append_nil _).symm, htrace⟩
  | cons d ds ih =>
    rw [List.length_cons] at hroom
    have hc : s.count.toNat < s.capacity := by omega
    have ha := allows_ins (d := d) hg.2.1 hc
    have hcount := count_after_ins (d := d) hg.capacity.2 hc
    obtain ⟨m, hrun, hgood, hcont, hend⟩ := ih ((hg.after ha).withTrace _)
      (by simp only [State.after_capacity, hcount]; omega) rfl
    have happend : m.contents = (s.after (.ins d)).contents ++ ds.map some := hcont
    rw [contents_after_ins hg.capacity.2 hc (hg.1.distance hg.2), List.append_assoc] at happend
    exact ⟨m, hg.goodRun_cons htrace (decode_ins_word d) ha hrun, hgood, happend, hend⟩

/-- As many removes as elements are held run without violation, return the contents in order and leave none; the
induction takes the oldest element off. -/
theorem State.Good.drain {s : State} {vs : List Byte} {rest : List CommandWord} (hg : s.Good)
    (hcont : s.contents = vs.map some) (htrace : s.trace = List.replicate vs.length 0x200 ++ rest) :
    ∃ t, goodRun vs.length s = some (t, vs) ∧ t.Good ∧ t.contents = [] ∧ t.trace = rest := by
  induction vs generalizing s with
  | nil => exact ⟨s, rfl, hg, hcont, htrace⟩
  | cons v vs ih =>
    have hc : 0 < s.count.toNat := count_pos_of_contents_head (congrArg List.head? hcont)
    have ha := allows_rem hg.2.1 hc
    rw [hg.contents_eq_cons_remData hc, List.map_cons] at hcont
    obtain ⟨hv, hrest⟩ := List.cons.inj hcont
    obtain ⟨t, hrun, hgood, hempty, hend⟩ := ih ((hg.after ha).withTrace (List.replicate vs.length 0x200 ++ rest))
      hrest rfl
    have hreturned : returnedBy .rem (s.after .rem) = [v] := congrArg (fun b => [b]) (Option.some.inj hv)
    have hfirst := hg.goodRun_cons htrace decode_rem_word ha hrun
    rw [hreturned] at hfirst
    exact ⟨t, hfirst, hgood, hempty, hend⟩

/-! ### The statements -/

/-- Settles O52: the filled buffer holds exactly the elements inserted, so the drain returns them. -/
theorem fillThenDrainReturnsTheElements : Obligations.FillThenDrainReturnsTheElements := by
  unfold Obligations.FillThenDrainReturnsTheElements
  intro s ds rest hg hc hlen htrace
  have hc0 : s.count.toNat = 0 := by rw [hc]; rfl
  rw [List.append_assoc] at htrace
  obtain ⟨m, hfill, hgm, hcont, hremoves⟩ := hg.fill (by omega) htrace
  rw [contents_eq_nil hc0, List.nil_append] at hcont
  obtain ⟨t, hdrain, hgt, hempty, hend⟩ := hgm.drain hcont hremoves
  refine ⟨m, t, hfill, ?_, goodRun_add hfill hdrain, hgt, ?_, hend⟩
  · rw [← State.contents_length, hcont, List.length_map]
  · exact BitVec.eq_of_toNat_eq (by rw [← State.contents_length, hempty]; rfl)

/-- Settles O32: REM is allowed and its cell exists, so it completes with its effect; the flags are those of a count one
down. -/
theorem removeReturnsAdvancesAndCounts : Obligations.RemoveReturnsAdvancesAndCounts := by
  unfold Obligations.RemoveReturnsAdvancesAndCounts
  intro s _ hr hc hle hrd
  have hcell := cellsExist_rem hrd
  have hcount := count_after_rem hc
  refine ⟨s.after .rem, exec_of_allows (allows_rem hr hc) hcell, State.commandFrame_after rfl,
    State.showsOutputs_of_tick hr rfl, fun v hv => after_remData rfl hr hc hv, rfl, by omega, rfl, hr,
    fun a => State.after_readCell_of_not_written hcell (.inl rfl), ?_, ?_⟩
  · exact fullFlag_of_ne (by rw [hcount, State.after_capacity]; omega)
  · rw [emptyFlag_iff]; omega

/-- Settles O33: the element REM shows is the one it takes; REM keeps the invariant, which bounds the count and the
cursors after it. -/
theorem removeReturnsTheOldestElement : Obligations.RemoveReturnsTheOldestElement := by
  unfold Obligations.RemoveReturnsTheOldestElement
  intro s hg hc
  have ha := allows_rem hg.2.1 hc
  obtain ⟨hinv, hunviolated⟩ := hg.after ha
  obtain ⟨hwr, hrd⟩ := hinv.cursors hunviolated.1
  exact ⟨s.after .rem, hg.1.exec_of_allows ha, hg.contents_eq_cons_remData hc, count_after_rem hc, rfl,
    inc_eq_mod (hg.1.cursors hg.2.1).2, rfl, hinv.count_le hunviolated, hwr, hrd, hinv.distance hunviolated⟩

end Sys2Proof.Machine

/-! PROOFS. The statements of 44_concurrent.md: NOP, idle cycles before a command, INSREM and its two halves. -/

namespace Sys2Proof.Machine

/-! ### NOP and idle cycles (44_concurrent.md R85) -/

theorem nop_not_contracted : ¬ Instr.nop.contracted := by
  simp [Instr.contracted, Instr.inserted, Instr.removes]

/-- NOP stands under no contract, so it completes in every state. -/
theorem exec_nop (s : State) : exec .nop s = .next (s.after .nop) :=
  exec_of_not_contracted nop_not_contracted

/-- The state after `k` idle cycles, `p` the ports seen in the last: it differs in what was seen and in the numbers of the
cycle and its draw only. -/
def State.idled (k : Nat) (p : Ports) (s : State) : State :=
  { s with out := p, draws := s.draws + k, cycle := s.cycle + k }

theorem nopCycles_eq_idled (k : Nat) (s : State) : ∃ p, nopCycles k s = .next (s.idled k p) := by
  induction k generalizing s with
  | zero => exact ⟨s.out, rfl⟩
  | succ k ih =>
    obtain ⟨p, hp⟩ := ih s.tick
    refine ⟨p, ?_⟩
    calc nopCycles (k + 1) s = nopCycles k s.tick := rfl
      _ = .next (s.tick.idled k p) := hp
      _ = .next (s.idled (k + 1) p) := by simp [State.idled, State.tick, Nat.add_assoc, Nat.add_comm 1 k]

/-- The contract and the cells of an instruction do not ask for what idle cycles change. -/
theorem State.Allows.idled {s : State} {i : Instr} (ha : s.Allows i) (k : Nat) (p : Ports) : (s.idled k p).Allows i := ha

theorem State.CellsExist.idled {s : State} {i : Instr} (hc : s.CellsExist i) (k : Nat) (p : Ports) :
    (s.idled k p).CellsExist i := hc

theorem State.after_idled_arch (s : State) (i : Instr) (k : Nat) (p : Ports) :
    ((s.idled k p).after i).arch = (s.after i).arch := by
  cases i <;> rfl

/-- While an element is held no port shows a draw, so idle cycles do not change what the ports show. -/
theorem State.Good.cyclePorts_idled {s : State} (hg : s.Good) (hc : 0 < s.count.toNat) (k : Nat) (p : Ports) :
    (s.idled k p).cyclePorts = s.cyclePorts := by
  obtain ⟨v, -, hhead, -⟩ := hg.oldest hc
  have hdatum : (s.idled k p).portRemData = s.portRemData := by
    rw [State.portRemData_of_some hhead, State.portRemData_of_some (show (s.idled k p).headDatum = some v from hhead)]
  rw [State.cyclePorts_of_ready hg.2.1, State.cyclePorts_of_ready (show (s.idled k p).inited = true from hg.2.1), hdatum]
  rfl

/-- An allowed command that answers in any state, reachable or not, found its cells and had its effect. -/
theorem State.Allows.exec_next {s t : State} {i : Instr} (ha : s.Allows i) (h : exec i s = .next t) :
    s.CellsExist i ∧ t = s.after i := by
  by_cases hc : i.contracted
  · rw [exec_of_contracted hc, State.underContract_of_none (ha.no_violation hc)] at h
    exact ustep_next h
  · rw [exec_of_not_contracted hc] at h
    exact ⟨⟨fun hins => absurd (.inl hins) hc, fun hrem => absurd (.inr hrem) hc⟩, (Host.Outcome.next.inj h).symm⟩

/-! ### INSREM under the contract and at its bounds (44_concurrent.md R83, R84) -/

theorem cellsExist_insrem {s : State} {d : Byte} (hwr : s.wrPtr < s.capacity) (hrd : s.rdPtr < s.capacity) :
    s.CellsExist (.insrem d) :=
  ⟨fun _ => hwr, fun _ => hrd⟩

/-- At `count = N` nothing that inserts is allowed, a remove in the same cycle or not. -/
theorem not_allows_of_full {s : State} {i : Instr} (hc : s.count.toNat = s.capacity)
    (hins : i.inserted.isSome = true) : ¬ s.Allows i :=
  fun ha => absurd hc (Nat.ne_of_lt (ha.1 hins).2)

/-- At `count = 0` nothing that removes is allowed, an insert in the same cycle or not. -/
theorem not_allows_of_empty {s : State} {i : Instr} (hc : s.count.toNat = 0) (hrem : i.removes = true) :
    ¬ s.Allows i :=
  fun ha => absurd hc (Nat.ne_of_gt (ha.2 hrem).2)

/-- No count stands strictly between 0 and 1. -/
theorem not_allows_insrem_of_capacity_one {s : State} {d : Byte} (hn : s.capacity = 1) : ¬ s.Allows (.insrem d) := by
  intro ha
  have h0 := (ha.2 rfl).2
  have hc := (ha.1 rfl).2
  omega

/-! ### The two halves of INSREM (44_concurrent.md R86) -/

/-- After a legal INS there is an element to remove. -/
theorem State.Good.allows_rem_after_ins {s : State} {d : Byte} (hg : s.Good) (hc : s.count.toNat < s.capacity) :
    (s.after (.ins d)).Allows .rem :=
  allows_rem hg.2.1 (by rw [count_after_ins hg.capacity.2 hc]; exact Nat.succ_pos _)

/-- After a legal REM there is room for an element. -/
theorem State.Good.allows_ins_after_rem {s : State} {d : Byte} (hg : s.Good) (h0 : 0 < s.count.toNat) :
    (s.after .rem).Allows (.ins d) := by
  have hle := hg.1.count_le hg.2
  exact allows_ins hg.2.1 (by rw [count_after_rem h0, State.after_capacity]; omega)

/-- Every command shows the oldest element on `rem_data`. -/
theorem State.Good.remData_of_contents_head {s : State} {v : Byte} {i : Instr} (hg : s.Good) (hi : i.wf = true)
    (h : s.contents.head? = some (some v)) : (s.after i).out.remData = v := by
  have hhead : s.headDatum = some v := by rw [hg.headDatum_eq, h]; rfl
  rw [(State.after_out hi).1]
  exact State.portRemData_of_some hhead

/-- A legal INS into a buffer that holds an element leaves the oldest one oldest. -/
theorem State.Good.contents_head_after_ins {s : State} {d v : Byte} (hg : s.Good) (hc : s.count.toNat < s.capacity)
    (h : s.contents.head? = some (some v)) : (s.after (.ins d)).contents.head? = some (some v) := by
  rw [contents_after_ins hg.capacity.2 hc (hg.1.distance hg.2), List.head?_append, h, Option.some_or]

/-! ### The statements -/

/-- Settles O29: neither the contract nor an effect asks for what idle cycles change, and no port shows it while an
element is held. -/
theorem nopCyclesChangeNoLaterState : Obligations.NopCyclesChangeNoLaterState := by
  unfold Obligations.NopCyclesChangeNoLaterState
  intro s k i t ha h
  obtain ⟨hcell, rfl⟩ := ha.exec_next h
  obtain ⟨p, hidle⟩ := nopCycles_eq_idled k s
  refine ⟨s.idled k p, (s.idled k p).after i, hidle, exec_of_allows (ha.idled k p) (hcell.idled k p),
    s.after_idled_arch i k p, ?_, fun hi hg h0 => ?_⟩
  · rw [State.after_mark, State.after_mark]
    rfl
  · rw [(State.after_out hi).1, (State.after_out hi).1]
    exact hg.cyclePorts_idled h0 k p

/-- Settles O34: INSREM is allowed and both its cells exist, so it completes with its effect. -/
theorem insertRemoveMovesBothCursors : Obligations.InsertRemoveMovesBothCursors := by
  unfold Obligations.InsertRemoveMovesBothCursors
  intro s d hr h0 hc hwr hrd
  have hcell := cellsExist_insrem (d := d) hwr hrd
  exact ⟨s.after (.insrem d), exec_of_allows (allows_insrem hr h0 hc) hcell, State.commandFrame_after rfl,
    State.showsOutputs_of_tick hr rfl, fun v hv => after_remData rfl hr h0 hv, rfl, rfl, rfl, hr,
    State.after_readCell_wrPtr hcell rfl, fun a ha => State.after_readCell_of_not_written hcell (.inr ha)⟩

/-- Settles O35: between the bounds both orders are allowed and meet in the effect of INSREM, the remove finding the
same oldest element; at a bound one half must come first to make the other legal. -/
theorem insertRemoveEqualsItsHalves : Obligations.InsertRemoveEqualsItsHalves := by
  unfold Obligations.InsertRemoveEqualsItsHalves
  intro s d hg
  refine ⟨fun h0 hc => ?_, fun hfull => ?_, fun hempty => ?_⟩
  · have hboth := allows_insrem (d := d) hg.2.1 h0 hc
    have hins := allows_ins (d := d) hg.2.1 hc
    have hrem := allows_rem hg.2.1 h0
    obtain ⟨v, hhead, -, -⟩ := hg.oldest h0
    have hv := hg.remData_of_contents_head (i := .insrem d) rfl hhead
    have hb := (hg.after hins).remData_of_contents_head (i := .rem) rfl (hg.contents_head_after_ins hc hhead)
    refine ⟨_, _, _, _, _, hg.1.exec_of_allows hboth,
      hg.1.exec_of_allows hins, (hg.after hins).1.exec_of_allows (hg.allows_rem_after_ins hc),
      hg.1.exec_of_allows hrem, (hg.after hrem).1.exec_of_allows (hg.allows_ins_after_rem h0),
      (arch_after_ins_rem s d).symm, (arch_after_rem_ins s d).symm,
      hg.2.2, hg.2.2, hg.2.2, hg.2.2, hg.2.2, ?_, hb.trans hv.symm, rfl, contents_after_insrem hg h0 hc⟩
    rw [hhead, hv]
  · have h0 : 0 < s.count.toNat := hfull ▸ hg.capacity.1
    have hrem := allows_rem hg.2.1 h0
    exact ⟨not_allows_of_full hfull rfl, not_allows_of_full hfull rfl, hrem, _, hg.1.exec_of_allows hrem,
      hg.allows_ins_after_rem h0⟩
  · have hc : s.count.toNat < s.capacity := hempty ▸ hg.capacity.1
    have hins := allows_ins (d := d) hg.2.1 hc
    exact ⟨not_allows_of_empty hempty rfl, not_allows_of_empty hempty rfl, hins, _, hg.1.exec_of_allows hins,
      hg.allows_rem_after_ins hc⟩

/-- Settles O36: what the contract does not allow faults under the default policy. -/
theorem insertRemoveIsNeverLegalAtCapacityOne : Obligations.InsertRemoveIsNeverLegalAtCapacityOne := by
  unfold Obligations.InsertRemoveIsNeverLegalAtCapacityOne
  exact fun s d hi hm hp hn => hi.exec_of_not_allows hm hp (not_allows_insrem_of_capacity_one hn)

/-- Settles O28: NOP completes in every state with an effect on no register. -/
theorem nopChangesNothing : Obligations.NopChangesNothing := by
  unfold Obligations.NopChangesNothing
  exact fun s => ⟨s.after .nop, exec_nop s, State.after_arch nop_not_contracted (by simp), State.commandFrame_after rfl⟩

end Sys2Proof.Machine

/-! PROOFS. The statements of 60_exceptions.md: the three violations under both policies, and the fault mark. -/

namespace Sys2Proof.Machine

/-! ### Which violation a command commits (60_exceptions.md R89 to R91) -/

/-- V2: at `count = N` whatever inserts overflows, a remove in the same cycle or not. -/
theorem State.violation_of_full {s : State} (hr : s.inited = true) (hc : s.count.toNat = s.capacity) (op : Opcode)
    (d : Byte) (removes : Bool) : s.violation op (some d) removes = some (.overflow op d) := by
  have hfull := (fullFlag_iff _ _).mpr hc
  simp [State.violation, hr, hfull]

/-- V3: at `count = 0` whatever removes underflows; it does not overflow, since N is not 0. -/
theorem State.violation_of_empty {s : State} (hr : s.inited = true) (hn : 0 < s.capacity) (hc : s.count = 0)
    (op : Opcode) (datum : Option Byte) : s.violation op datum true = some (.underflow op) := by
  have hzero : s.count.toNat = 0 := by rw [hc]; rfl
  have hfull := fullFlag_of_ne (n := s.capacity) (c := s.count) (by omega)
  have hempty := (emptyFlag_iff _).mpr hzero
  simp [State.violation, hr, hfull, hempty]

/-- In a reachable state without violation, what the contract does not allow commits a violation. -/
theorem State.Inv.violation_of_not_allows {s : State} {i : Instr} (hi : s.Inv) (hm : s.mark = none)
    (ha : ¬ s.Allows i) : i.contracted ∧ ∃ v, s.violation (opcodeOf i) i.inserted i.removes = some v := by
  rw [allows_iff_no_violation hi hm, Classical.not_imp] at ha
  exact ⟨ha.1, Option.ne_none_iff_exists'.mp ha.2⟩

/-! ### Carrying on under the policy `mechanical` (60_exceptions.md R97, R98, R100) -/

/-- A violation in a reachable state is answered by a next state whose mark is the one the violation left. -/
theorem State.Inv.exec_violation_mechanical {s : State} {i : Instr} {v : Violation} (hi : s.Inv) (hc : i.contracted)
    (hv : s.violation (opcodeOf i) i.inserted i.removes = some v) (hp : s.policy = .mechanical) :
    ∃ t, exec i s = .next t ∧ t.mark = (s.setMark v).mark := by
  cases hr : s.inited with
  | true =>
    exact ⟨_, Machine.exec_violation_mechanical hc hv hp hr (cellsExist_of_inv hi i fun _ => hr),
      State.after_mark _ _⟩
  | false =>
    obtain rfl : Violation.useBeforeInit (opcodeOf i) = v :=
      Option.some.inj ((State.violation_of_uninit hr _ _ _).symm.trans hv)
    exact ⟨_, exec_uninit_mechanical hc hp hr, rfl⟩

/-- A mark that stands is kept by every instruction that answers, INIT included (60_exceptions.md R99, R100). -/
theorem exec_keeps_mark {i : Instr} {s t : State} {m : FaultMark} (hm : s.mark = some m) (h : exec i s = .next t) :
    t.mark = some m := by
  cases hr : s.inited with
  | true =>
    obtain ⟨-, ⟨-, rfl⟩ | ⟨-, v, -, -, rfl⟩⟩ := exec_next_of_ready hr h
    · rw [State.after_mark, hm]
    · rw [State.after_mark, State.setMark_mark_of_some _ _ _ hm]
  | false =>
    obtain ⟨-, rfl⟩ | ⟨-, -, rfl⟩ := exec_next_of_uninit hr h
    · rw [State.after_mark, hm]
    · rw [State.scramble_mark, State.tick_mark, State.setMark_mark_of_some _ _ _ hm]

/-- No effect asks for the policy. -/
theorem State.after_withPolicy (s : State) (i : Instr) (p : MisusePolicy) :
    ({ s with policy := p } : State).after i = { s.after i with policy := p } := by
  cases i <;> rfl

theorem State.readCell_scramble (s : State) (a : Nat) : s.scramble.readCell a = none := by
  simp [State.readCell, Memory.read]

/-! ### The statements -/

/-- Settles O37: in UNINIT every command under the contract commits V1, and the others have their effect. -/
theorem useBeforeInitIsRaised : Obligations.UseBeforeInitIsRaised := by
  unfold Obligations.UseBeforeInitIsRaised
  intro s hr
  refine ⟨fun hp => ?_, fun i hins hrem => ?_⟩
  · have raises {i : Instr} (hc : i.contracted) :
        exec i s = .fault (.violation (.useBeforeInit (opcodeOf i)) s.diagnostic) :=
      exec_violation_fault hc (State.violation_of_uninit hr _ _ _) hp
    exact ⟨fun d => raises (i := .ins d) (.inl rfl), raises (i := .rem) (.inr rfl),
      fun d => raises (i := .insrem d) (.inl rfl)⟩
  · have hc : ¬ i.contracted := by simp [Instr.contracted, hins, hrem]
    exact ⟨_, exec_of_not_contracted hc, s.after_mark i⟩

/-- Settles O38: INS and INSREM both insert. -/
theorem overflowIsRaised : Obligations.OverflowIsRaised := by
  unfold Obligations.OverflowIsRaised
  intro s d hr hc hp
  exact ⟨exec_violation_fault (.inl rfl) (State.violation_of_full hr hc _ d _) hp,
    exec_violation_fault (.inl rfl) (State.violation_of_full hr hc _ d _) hp⟩

/-- Settles O39: REM and INSREM both remove. -/
theorem underflowIsRaised : Obligations.UnderflowIsRaised := by
  unfold Obligations.UnderflowIsRaised
  intro s d hn hr hc hp
  exact ⟨exec_violation_fault (.inr rfl) (State.violation_of_empty hr hn hc _ _) hp,
    exec_violation_fault (.inr rfl) (State.violation_of_empty hr hn hc _ _) hp⟩

/-- Settles O41: each row is a violation that sets the mark and then has the effect of its command, the count going over
N or under 0 modulo 256. -/
theorem unguardedDatapathAtTheBoundaries : Obligations.UnguardedDatapathAtTheBoundaries := by
  unfold Obligations.UnguardedDatapathAtTheBoundaries
  intro s d hr hp hptr hrd
  have hn : 0 < s.capacity := Nat.zero_lt_of_lt hrd
  have hins := cellsExist_ins (d := d) (hptr ▸ hrd)
  have hboth := cellsExist_insrem (d := d) (hptr ▸ hrd) hrd
  refine ⟨fun hfull => ⟨?_, ?_⟩, fun hempty => ⟨?_, ?_⟩⟩
  · have hv := State.violation_of_full hr hfull (opcodeOf (.ins d)) d false
    refine ⟨_, exec_violation_mechanical (.inl rfl) hv hp hr hins,
      State.after_readCell_wrPtr ((State.setMark_cellsExist _ _ _).mpr hins) rfl, rfl, rfl, ?_⟩
    rw [← hfull]
    exact (countArithmeticIsModuloTwoToTheCW.1 s.count).1
  · have hv := State.violation_of_full hr hfull (opcodeOf (.insrem d)) d true
    exact ⟨_, exec_violation_mechanical (.inl rfl) hv hp hr hboth,
      fun v hcell => after_remData rfl hr (hfull ▸ hn : 0 < s.count.toNat) hcell,
      State.after_readCell_wrPtr ((State.setMark_cellsExist _ _ _).mpr hboth) rfl, rfl, rfl, rfl⟩
  · have hv := State.violation_of_empty hr hn hempty (opcodeOf .rem) none
    refine ⟨_, exec_violation_mechanical (.inr rfl) hv hp hr (cellsExist_rem hrd), rfl, rfl, rfl, ?_⟩
    change (countDown s.count).toNat = 255
    rw [hempty]
    rfl
  · have hv := State.violation_of_empty hr hn hempty (opcodeOf (.insrem d)) (some d)
    exact ⟨_, exec_violation_mechanical (.inl rfl) hv hp hr hboth,
      State.after_readCell_wrPtr ((State.setMark_cellsExist _ _ _).mpr hboth) rfl, rfl, rfl, hempty⟩

/-- Settles O42: an allowed command has its effect, which does not ask for the policy. -/
theorem policiesAgreeOnLegalCommands : Obligations.PoliciesAgreeOnLegalCommands := by
  unfold Obligations.PoliciesAgreeOnLegalCommands
  intro s t i ha h
  obtain ⟨hcell, rfl⟩ := State.Allows.exec_next (s := { s with policy := .fault }) ha h
  have hafter := State.after_withPolicy { s with policy := .fault } i .mechanical
  exact (exec_of_allows (s := { s with policy := .mechanical }) ha hcell).trans (congrArg Host.Outcome.next hafter)

/-- Settles O43: a violation is carried on from, and what violates nothing has its effect; the cells exist in READY, the
only state in which an effect uses one. -/
theorem mechanicalBlockAlwaysResponds : Obligations.MechanicalBlockAlwaysResponds := by
  unfold Obligations.MechanicalBlockAlwaysResponds
  intro s i hi hp
  by_cases hc : i.contracted
  · cases hv : s.violation (opcodeOf i) i.inserted i.removes with
    | none =>
      have hr := ((State.violation_eq_none_iff _ _ _ _).mp hv).1
      exact ⟨_, exec_of_no_violation (fun _ => hv) (cellsExist_of_inv hi i fun _ => hr)⟩
    | some v =>
      obtain ⟨t, ht, -⟩ := hi.exec_violation_mechanical hc hv hp
      exact ⟨t, ht⟩
  · exact ⟨_, exec_of_not_contracted hc⟩

/-- Settles O44: `setMark` keeps a mark that stands and nothing else writes it; the first violation is the one the
policy `fault` stops at. -/
theorem faultMarkIsSetOnceAndSticky : Obligations.FaultMarkIsSetOnceAndSticky := by
  unfold Obligations.FaultMarkIsSetOnceAndSticky
  refine ⟨fun i s t m hm h => exec_keeps_mark hm h, fun i s hi hm hp ha => ?_⟩
  obtain ⟨hc, v, hv⟩ := hi.violation_of_not_allows hm ha
  obtain ⟨t, ht, hmark⟩ := hi.exec_violation_mechanical hc hv hp
  exact ⟨t, _, ht, hmark.trans (State.setMark_mark_of_none s v hm), rfl,
    exec_violation_fault (s := { s with policy := .fault }) hc hv rfl⟩

/-- Settles O45: misuse leaves the marked unspecified state, which holds no cell; INIT runs there as in every state. -/
theorem misuseBeforeInitStaysUninitialised : Obligations.MisuseBeforeInitStaysUninitialised := by
  unfold Obligations.MisuseBeforeInitStaysUninitialised
  intro s i hr hp hc
  exact ⟨_, _, exec_uninit_mechanical hc hp hr, hr, State.setMark_mark_ne_none s _, State.readCell_scramble _,
    exec_init _, rfl, rfl, rfl, rfl, rfl⟩

end Sys2Proof.Machine

/-! PROOFS. The statements of 70_reset_and_hazards.md: good runs and the contract, the cycle a command takes, when an
element becomes visible, and the snapshot bounds. -/

namespace Sys2Proof.Machine

/-! ### The level a contract-keeping environment knows of (60_exceptions.md R88, 90_conflicts.md C10) -/

theorem State.level_of_uninit {s : State} (h : s.inited = false) : s.level = none := if_neg (by simp [h])

/-- The environment follows an allowed command from the level before it to the level after it. -/
theorem levelAfter_of_allows {s : State} {i : Instr} (hn : s.capacity ≤ 255) (ha : s.Allows i) :
    levelAfter s.capacity s.level i = some (s.after i).level := by
  cases i with
  | ins d =>
    obtain ⟨hr, hc⟩ := ha.1 rfl
    rw [State.level_of_ready hr, State.level_of_ready (s := s.after (.ins d)) hr, count_after_ins hn hc]
    exact if_pos hc
  | rem =>
    obtain ⟨hr, h0⟩ := ha.2 rfl
    rw [State.level_of_ready hr, State.level_of_ready (s := s.after .rem) hr, count_after_rem h0]
    exact if_pos h0
  | insrem d =>
    obtain ⟨hr, hc⟩ := ha.1 rfl
    rw [State.level_of_ready hr, State.level_of_ready (s := s.after (.insrem d)) hr]
    exact if_pos ⟨(ha.2 rfl).2, hc⟩
  | nop | init | count | empty | full | head => rfl

/-- A command that the state does not allow breaks the contract at its level. -/
theorem levelAfter_of_not_allows {s : State} {i : Instr} (ha : ¬ s.Allows i) :
    levelAfter s.capacity s.level i = none := by
  cases hr : s.inited with
  | false =>
    rw [State.level_of_uninit hr]
    cases i with
    | ins d | rem | insrem d => rfl
    | nop | init | count | empty | full | head => exact absurd ⟨nofun, nofun⟩ ha
  | true =>
    rw [State.level_of_ready hr]
    cases i with
    | ins d => exact if_neg fun hc => ha (allows_ins hr hc)
    | rem => exact if_neg fun h0 => ha (allows_rem hr h0)
    | insrem d => exact if_neg fun h => ha (allows_insrem hr h.1 h.2)
    | nop | init | count | empty | full | head => exact absurd ⟨nofun, nofun⟩ ha

/-- Commands keep the contract from a state's level on if the state allows the first and the others keep it from the
level the first leads to. -/
theorem keepsContract_cons_iff {s : State} (hn : s.capacity ≤ 255) (i : Instr) (is : List Instr) :
    keepsContract s.capacity s.level (i :: is) = true ↔
      s.Allows i ∧ keepsContract (s.after i).capacity (s.after i).level is = true := by
  by_cases ha : s.Allows i
  · simp [keepsContract, levelAfter_of_allows hn ha, ha]
  · simp [keepsContract, levelAfter_of_not_allows ha, ha]

/-! ### Good runs (70_reset_and_hazards.md R116) -/

/-- A run is good if its first command is allowed and the rest is good from where that command leads. -/
theorem goodRun_isSome_succ {s : State} {k : Nat} {w : CommandWord} {rest : List CommandWord} (hi : s.Inv)
    (hm : s.mark = none) (hw : s.trace = w :: rest) :
    (goodRun (k + 1) s).isSome = true ↔ s.Allows (decode w) ∧
      (goodRun k (({ s with trace := rest } : State).after (decode w))).isSome = true := by
  simp only [Option.isSome_iff_exists, goodRun_succ hi hm hw]
  constructor
  · rintro ⟨_, ha, q, hq, _⟩
    exact ⟨ha, q, hq⟩
  · rintro ⟨ha, q, hq⟩
    exact ⟨_, ha, q, hq, rfl⟩

/-- Settles O49, by induction on the cycles of the run: the state allows a command exactly where its level does, and an
allowed command leads to the level the environment expects. -/
theorem runIsGoodExactlyWhenTheContractIsKept : Obligations.RunIsGoodExactlyWhenTheContractIsKept := by
  unfold Obligations.RunIsGoodExactlyWhenTheContractIsKept
  intro s k hi hm hk
  induction k generalizing s with
  | zero => exact iff_of_true rfl rfl
  | succ k ih =>
    cases hw : s.trace with
    | nil => simp [hw] at hk
    | cons w rest =>
      have hi₁ := hi.withTrace rest
      have hn : s.capacity ≤ 255 := ((capacityWf_iff _).mp hi.capacity_wf).2
      have hlen : k ≤ rest.length := by simpa [hw] using hk
      rw [goodRun_isSome_succ hi hm hw, commands_succ k hw]
      refine Iff.trans (and_congr_right fun ha => ?_)
        (keepsContract_cons_iff (s := { s with trace := rest }) hn (decode w) _).symm
      exact ih _ (hi₁.after (State.Allows.ready ha) fun _ => ha) (by simpa using hm) (by simpa using hlen)

/-- A good run from a good state ends in a good state of the same capacity. -/
theorem State.Good.of_goodRun {s t : State} {k : Nat} {vs : List Byte} (hg : s.Good)
    (h : goodRun k s = some (t, vs)) : t.Good ∧ t.capacity = s.capacity := by
  induction k generalizing s vs with
  | zero =>
    obtain ⟨rfl, rfl⟩ := Prod.mk.inj (Option.some.inj h)
    exact ⟨hg, rfl⟩
  | succ k ih =>
    obtain ⟨w, rest, us, _, ha, hq⟩ := hg.goodRun_cases h
    obtain ⟨hgt, hcap⟩ := ih ((hg.withTrace rest).after ha) hq
    exact ⟨hgt, hcap.trans (State.after_capacity _ _)⟩

/-! ### The cycle a command takes (70_reset_and_hazards.md R114) -/

/-- An output function neither inserts nor removes. -/
theorem Instr.wf_of_contracted {i : Instr} (hc : i.contracted) : i.wf = true := by
  cases i with
  | nop | ins d | rem | insrem d | init => rfl
  | count | empty | full | head => exact hc.elim nofun nofun

/-- Whatever answers takes the words and the cycles of its effect, contract kept or not. -/
theorem exec_trace_cycle {i : Instr} {s t : State} (h : exec i s = .next t) :
    t.trace = s.trace ∧ t.cycle = (s.after i).cycle := by
  cases hr : s.inited with
  | true =>
    obtain ⟨m, rfl⟩ := exec_next_eq_after hr h
    exact ⟨s.after_trace i, rfl⟩
  | false =>
    obtain ⟨_, rfl⟩ | ⟨hc, _, rfl⟩ := exec_next_of_uninit hr h
    · exact ⟨s.after_trace i, rfl⟩
    · exact ⟨rfl, (State.commandFrame_after (s := s) (Instr.wf_of_contracted hc)).cycle.symm⟩

/-! ### The statements -/

/-- Settles O9: a command has its effect's cycle under either policy, and a word selects a command. -/
theorem everyCommandTakesOneCycle : Obligations.EveryCommandTakesOneCycle := by
  unfold Obligations.EveryCommandTakesOneCycle
  constructor
  · intro i s t h
    obtain ⟨htrace, hcycle⟩ := exec_trace_cycle h
    exact ⟨htrace, hcycle.trans (s.after_cycle i)⟩
  · intro s t h
    obtain ⟨_, hs⟩ | ⟨w, rest, hw, hs⟩ := step_cases s <;> rw [hs] at h
    · cases h
    · obtain ⟨htrace, hcycle⟩ := exec_trace_cycle h
      exact ⟨hcycle.trans (State.commandFrame_after (decode_wf w)).cycle, by rw [hw, htrace]; rfl⟩

/-- Settles O25: the insert's ports are those of the empty buffer, and the one element held after it is the one the
remove shows. -/
theorem insertedElementIsVisibleInTheNextCycle : Obligations.InsertedElementIsVisibleInTheNextCycle := by
  unfold Obligations.InsertedElementIsVisibleInTheNextCycle
  intro s d hg hc
  have hzero : s.count.toNat = 0 := by rw [hc]; rfl
  have hroom : s.count.toNat < s.capacity := hzero ▸ hg.capacity.1
  have hins := allows_ins (d := d) hg.2.1 hroom
  have hrem := hg.allows_rem_after_ins (d := d) hroom
  have hgt := hg.after hins
  have hcont : (s.after (.ins d)).contents = [some d] := by
    rw [contents_after_ins hg.capacity.2 hroom (hg.1.distance hg.2), contents_eq_nil hzero, List.nil_append]
  have hshows : s.ShowsOutputs (s.after (.ins d)) := State.showsOutputs_of_tick hg.2.1 rfl
  have hempty : ((s.after (.ins d)).after .rem).out.empty = false := by
    rw [(State.after_out rfl).1, State.tick_out, State.cyclePorts_of_ready hgt.2.1]
    exact emptyFlag_of_pos (hrem.2 rfl).2
  exact ⟨s.after (.ins d), (s.after (.ins d)).after .rem, hg.1.exec_of_allows hins, hshows.empty.mpr hc,
    hshows.count.trans hc, hgt.1.exec_of_allows hrem, hempty,
    hgt.remData_of_contents_head rfl (congrArg List.head? hcont), (hgt.after hrem).2.2⟩

/-- Settles O51: the other client moves the count away from the bound, since the count is the sample plus the inserts
minus the removes; so the next command is allowed. -/
theorem snapshotBoundsAreSafe : Obligations.SnapshotBoundsAreSafe := by
  unfold Obligations.SnapshotBoundsAreSafe
  intro s t k vs d hg hrun hinit
  obtain ⟨hgt, hcap⟩ := hg.of_goodRun hrun
  have hcount := countIsInsertsMinusRemoves s t k vs hg hrun hinit
  constructor
  · intro hremoved
    have ha : t.Allows .rem := allows_rem hgt.2.1 (by omega)
    exact ⟨_, hgt.1.exec_of_allows ha, (hgt.after ha).2.2⟩
  · intro hinserted
    have ha : t.Allows (.ins d) := allows_ins hgt.2.1 (by omega)
    exact ⟨_, hgt.1.exec_of_allows ha, (hgt.after ha).2.2⟩

end Sys2Proof.Machine
